-- ==== Sys2Proof/Word.lean ====
section
/-!
DEFINITION. The words of CORE: 32-bit register and DMEM words, bytes, and binary32 values held as
their bits (spec/00_scope.md R8, R9, R12).
-/

namespace Sys2Proof

/-- A register or DMEM word: every register access and every DMEM word is 32 bits (R8, R61). -/
abbrev Word := BitVec 32

/-- A byte lane of a word (R63). -/
abbrev Byte := BitVec 8

/-- A binary32 value as its bit pattern: `f32` and `bits` of R12 are the identity here. -/
abbrev F32 := BitVec 32

end Sys2Proof
end

