-- ==== Sys2Proof/Syntax.lean ====
section
/-!
DEFINITION. The commands of SMCORE-CMD 1.0: one constructor per row of spec/opcode_table.json
(spec/30_encoding.md R83, R84, R88).
-/

namespace Sys2Proof

/-- A legal command. The command word carries no operand but its flags (R81), and the table gives each
legal flag its own row, so no constructor has an argument. -/
inductive Instr where
  /-- 0x00000000 (40_config.md R100). -/
  | nop
  /-- 0x00000001 (40_config.md R101). -/
  | cfgApply
  /-- 0x00000002 (40_config.md R105). -/
  | layoutDump
  /-- 0x00000010 (41_fft.md R129). -/
  | fftFwd
  /-- 0x00000011 (41_fft.md R130). -/
  | fftInv
  /-- 0x00000012 (41_fft.md R131). -/
  | cconv
  /-- 0x00000020 (42_sync.md R148), against the start waveform. -/
  | xcorr
  /-- 0x00000120 (42_sync.md R148), SEL: against the end waveform. -/
  | xcorrSel
  /-- 0x00000021 (42_sync.md R149). -/
  | syncPush
  /-- 0x00000022 (42_sync.md R157). -/
  | syncReset
  /-- 0x00000030 (43_ofdm.md R172), real output only. -/
  | ofdmEnc
  /-- 0x00000130 (43_ofdm.md R172), IMAG_OUT: the imaginary output too. -/
  | ofdmEncImagOut
  /-- 0x00000031 (43_ofdm.md R173), imaginary input +0. -/
  | ofdmDec
  /-- 0x00000131 (43_ofdm.md R173), IMAG_IN: imaginary input from DMEM. -/
  | ofdmDecImagIn
  /-- 0x00000032 (43_ofdm.md R174). -/
  | realign
  /-- 0x00000040 (44_channel.md R190). -/
  | chEst
  /-- 0x00000041 (44_channel.md R191). -/
  | chEq
  /-- 0x00000050 (45_psk.md R204). -/
  | pskMod
  /-- 0x00000051 (45_psk.md R205). -/
  | pskDemod
  /-- 0x00000060 (46_bitstream.md R217). -/
  | bitPack
  /-- 0x00000061 (46_bitstream.md R218). -/
  | bitUnpack
  deriving DecidableEq, Repr

end Sys2Proof
end

