-- ==== Sys2Proof/WellFormed.lean ====
section
/-!
DEFINITION. Well-formed commands. The command word carries no operand (spec/30_encoding.md R81), so there
is nothing a command could have out of range: the checks of R82 are on WORDS and stand in
Sys2Proof/Decode.lean (`opcodeKnown`, `reservedClear`).
-/

namespace Sys2Proof

/-- Every command is well-formed: it carries no operand that could be out of range (R81). -/
def wellFormed (i : Instr) : Bool :=
  match i with
  | .nop | .cfgApply | .layoutDump => true
  | .fftFwd | .fftInv | .cconv => true
  | .xcorr | .xcorrSel | .syncPush | .syncReset => true
  | .ofdmEnc | .ofdmEncImagOut | .ofdmDec | .ofdmDecImagIn | .realign => true
  | .chEst | .chEq => true
  | .pskMod | .pskDemod => true
  | .bitPack | .bitUnpack => true

end Sys2Proof
end

