-- ==== Sys2Proof/Decode.lean ====
section
/-!
DEFINITION. From a command word to a command (spec/30_encoding.md R82, R83, R84, R86), and back (R88).
-/

namespace Sys2Proof

/-- The flag bits (command word bits 15..8) that R84 defines for an opcode, and `none` for an opcode
that is not in the map of R83. -/
def definedFlags (op : Byte) : Option Byte :=
  match op.toNat with
  | 0x00 => some 0
  | 0x01 => some 0
  | 0x02 => some 0
  | 0x10 => some 0
  | 0x11 => some 0
  | 0x12 => some 0
  | 0x20 => some 1
  | 0x21 => some 0
  | 0x22 => some 0
  | 0x30 => some 1
  | 0x31 => some 1
  | 0x32 => some 0
  | 0x40 => some 0
  | 0x41 => some 0
  | 0x50 => some 0
  | 0x51 => some 0
  | 0x60 => some 0
  | 0x61 => some 0
  | _ => none

/-- OP, bits 7..0 of a command word (R80). -/
def opField (w : Word) : Byte := w.extractLsb' 0 8

/-- FLAGS, bits 15..8 of a command word (R80). -/
def flagField (w : Word) : Byte := w.extractLsb' 8 8

/-- RSV, bits 31..16 of a command word (R80). -/
def reservedField (w : Word) : BitVec 16 := w.extractLsb' 16 16

/-- First check of R82: the opcode is in the map of R83. -/
def opcodeKnown (w : Word) : Bool := (definedFlags (opField w)).isSome

/-- Second check of R82: the reserved bits are 0 and no flag bit is set that R84 does not define. -/
def reservedClear (w : Word) : Bool :=
  reservedField w == 0 && flagField w &&& ~~~((definedFlags (opField w)).getD 0) == 0

/-- The legal words of R86. -/
def wordLegal (w : Word) : Bool := opcodeKnown w && reservedClear w

/-- What decoding a word gives. The two rejections are reported by name in ERR_CODE (R82, R231). -/
inductive Decoded where
  /-- The word is legal and is this command. -/
  | command (i : Instr)
  /-- Step 1 of R82 fails: ILLEGAL_OP, info OP. -/
  | illegalOp (op : Byte)
  /-- Step 2 of R82 fails: RESERVED_BITS, info the word. -/
  | reservedBits (w : Word)
  deriving DecidableEq, Repr

/-- The command of an opcode of R83 with flag bit 8 of R84. A pair that R83 and R84 do not define is
no command. -/
def commandOf (op : Byte) (flag : Bool) : Option Instr :=
  match op.toNat, flag with
  | 0x00, false => some .nop
  | 0x01, false => some .cfgApply
  | 0x02, false => some .layoutDump
  | 0x10, false => some .fftFwd
  | 0x11, false => some .fftInv
  | 0x12, false => some .cconv
  | 0x20, false => some .xcorr
  | 0x20, true => some .xcorrSel
  | 0x21, false => some .syncPush
  | 0x22, false => some .syncReset
  | 0x30, false => some .ofdmEnc
  | 0x30, true => some .ofdmEncImagOut
  | 0x31, false => some .ofdmDec
  | 0x31, true => some .ofdmDecImagIn
  | 0x32, false => some .realign
  | 0x40, false => some .chEst
  | 0x41, false => some .chEq
  | 0x50, false => some .pskMod
  | 0x51, false => some .pskDemod
  | 0x60, false => some .bitPack
  | 0x61, false => some .bitUnpack
  | _, _ => none

/-- Decoding of R82: the opcode first, then the reserved and flag bits. -/
def decode (w : Word) : Decoded :=
  if opcodeKnown w then
    if reservedClear w then
      match commandOf (opField w) ((flagField w).getLsbD 0) with
      | some i => .command i
      | none => .reservedBits w
    else .reservedBits w
  else .illegalOp (opField w)

/-- The command words of R88. -/
def encode (i : Instr) : Word :=
  match i with
  | .nop => 0x00000000
  | .cfgApply => 0x00000001
  | .layoutDump => 0x00000002
  | .fftFwd => 0x00000010
  | .fftInv => 0x00000011
  | .cconv => 0x00000012
  | .xcorr => 0x00000020
  | .xcorrSel => 0x00000120
  | .syncPush => 0x00000021
  | .syncReset => 0x00000022
  | .ofdmEnc => 0x00000030
  | .ofdmEncImagOut => 0x00000130
  | .ofdmDec => 0x00000031
  | .ofdmDecImagIn => 0x00000131
  | .realign => 0x00000032
  | .chEst => 0x00000040
  | .chEq => 0x00000041
  | .pskMod => 0x00000050
  | .pskDemod => 0x00000051
  | .bitPack => 0x00000060
  | .bitUnpack => 0x00000061

/-- The command the decoder reads from an instruction of `nbits` bits with value `w`. A command is one
32-bit word written to CMD (R80), so bits above 31 are no part of any command. -/
def decodeTableWord (nbits w : Nat) : Option Instr :=
  if w % 2 ^ nbits < 2 ^ 32 then
    match decode (BitVec.ofNat 32 (w % 2 ^ nbits)) with
    | .command i => some i
    | .illegalOp _ => none
    | .reservedBits _ => none
  else none

end Sys2Proof
end

