-- ==== Sys2Proof/Config.lean ====
section
/-!
DEFINITION. What an instance of CORE fixes (its two parameters, spec/00_scope.md R7) and the one free
value the spec leaves open (spec/93_implementation_defined.md U3).
-/

namespace Sys2Proof

/-- The parameters of an instance (R7), readable at HWPARAM0 and HWPARAM1 (R25). The model takes them
as data: a state carries its instance's parameters and no step changes them (log 8). -/
structure HwParams where
  /-- DMEM_WORDS, the number of 32-bit words of DMEM. -/
  dmemWords : Nat
  /-- FFT_MAX_LEN, the largest transform length. -/
  fftMaxLen : Nat
  deriving DecidableEq, Repr

/-- The defaults of R7: 65536 words, transforms of at most 16384. -/
def Config.defaultParams : HwParams :=
  ⟨65536, 16384⟩

/-- The legal ranges of R7. -/
def HwParams.legal (p : HwParams) : Bool :=
  decide (4096 ≤ p.dmemWords) && decide (p.dmemWords ≤ 1048576) &&
    decide (8 ≤ p.fftMaxLen) && decide (p.fftMaxLen ≤ 65536)

/-- FREE VALUE (U3, R262; log 6). What word `index` of DMEM holds after the `abort`-th command that a
soft reset aborted, where that word lies in an output region of the command. Nothing constrains it. -/
opaque Config.abortedWord (abort index : Nat) : Word

end Sys2Proof
end

