-- ==== Sys2Proof/Machine/State.lean ====
section
/-!
DEFINITION. The state of CORE as plain data: the registers of spec/10_state.md R22, the active
configuration (R41), the hidden synchronizer and engine state (R46, R47), DMEM (spec/20_memory.md R61),
and the host's accesses still to come (spec/00_scope.md R17; log 1). The reset values are those of R22
and spec/70_reset_and_hazards.md R260.
-/

namespace Sys2Proof.Machine

/-- The error codes of R231 (60_exceptions.md). Codes 0x0D-0xFF are never written, so they have no name. -/
inductive ErrCode where
  | ok
  | illegalOp
  | reservedBits
  | notConfigured
  | addrRange
  | lengthMismatch
  | lengthLimit
  | unsupportedModOrder
  | badConfig
  | symbolRange
  | frameDecodeMismatch
  | capacity
  | badParam
  deriving DecidableEq, Repr

/-- MODE of R46 and R140. -/
inductive SyncMode where
  | searchingStart
  | capturing
  deriving DecidableEq, Repr

/-- The values of SYNC_EVENT (R40). Values 7-15 are never written, so they have no name. -/
inductive PushEvent where
  | none
  | primed
  | noDetect
  | candidate
  | start
  | frame
  | tooLong
  deriving DecidableEq, Repr

/-- The staging registers CFG_* (R30-R39), field by field: a reserved field has no storage (R23). -/
structure Staging where
  /-- CFG_SUBC.K -/
  subc : BitVec 16
  /-- CFG_PILOT.P -/
  pilot : BitVec 16
  /-- CFG_SYMLEN.N -/
  symlen : Word
  /-- CFG_CPF, binary32 -/
  cpf : F32
  /-- CFG_MOD.M -/
  modOrder : BitVec 8
  /-- CFG_SYNC.WSEL -/
  wsel : Bool
  /-- CFG_SYNC.NS -/
  ns : BitVec 8
  /-- CFG_SYNC.NE -/
  ne : BitVec 8
  /-- CFG_THRESH, binary32 -/
  thresh : F32
  /-- CFG_DISP -/
  disp : BitVec 16
  /-- CFG_MAXSYM -/
  maxsym : BitVec 16
  /-- CFG_PRE_START -/
  preStart : Word
  /-- CFG_PRE_END -/
  preEnd : Word
  /-- CFG_CAP_BASE -/
  capBase : Word
  deriving DecidableEq, Repr

/-- The active configuration ACT (R41). The ACT_* registers are views of its fields (log 16). -/
structure Active where
  k : Nat
  p : Nat
  n : Nat
  d : Nat
  cp : Nat
  r : Nat
  w : Nat
  l : Nat
  c : Nat
  m : Nat
  pilots : List Nat
  data : List Nat
  ns : Nat
  ne : Nat
  thresh : F32
  disp : Nat
  maxsym : Nat
  preS : Nat
  preE : Nat
  cap : Nat
  deriving DecidableEq, Repr

/-- The synchronizer: its hidden state (R46) and the observation registers that are not views of it (R40).
STATUS.CAPTURING, STATUS.PREV_VALID, SYNC_HCNT and SYNC_CAPLEN are views (log 16). -/
structure Sync where
  mode : SyncMode
  prevValid : Bool
  /-- PREV: ACT.W samples while `prevValid`, and empty (no value) otherwise (log 15). -/
  prev : List F32
  /-- HIST_S, oldest first -/
  histS : List Nat
  /-- HIST_E, oldest first -/
  histE : List Nat
  /-- CAPLEN -/
  capLen : Nat
  /-- SYNC_EVENT -/
  event : PushEvent
  /-- SYNC_LAG -/
  lag : Word
  /-- SYNC_STAT, binary32 -/
  stat : F32
  /-- SYNC_PEAK, binary32 -/
  peak : F32
  /-- SYNC_BOUND -/
  bound : Word
  /-- SYNC_FRAMELEN -/
  frameLen : Word
  deriving DecidableEq, Repr

/-- What the engine latches at acceptance (R27, R47, R233): the command word, the operand set, and the
registers a command reads as they stand at its acceptance (R69): CORR (R45) and the staging registers
(R273) (log 3). -/
structure Latch where
  word : Word
  args : Vector Word 12
  staging : Staging
  corrRe : F32
  corrIm : F32
  deriving DecidableEq, Repr

/-- One host access (R65): its width in bits, its byte offset and, for a write, the value. -/
inductive Access where
  | read (width : Nat) (offset : Word)
  | write (width : Nat) (offset : Word) (value : Word)
  deriving DecidableEq, Repr

/-- What happens next outside the registers (log 1): a host access, the running command's completion, or
both in the same step (R44, R242; log 12). -/
inductive Turn where
  | host (a : Access)
  | engine
  | both (a : Access)
  deriving DecidableEq, Repr

/-- What the bus answers to a host access (R65, R66). -/
inductive Reply where
  | data (v : Word)
  | written
  | busError
  deriving DecidableEq, Repr

/-- DMEM as cells (byte offset in CORE's address space, byte), in rising order of offset (R60, R61). A
word that is not listed holds no value (R75; log 5). -/
abbrev Memory := List Host.Cell

/-- The state of CORE. -/
structure State where
  /-- HWPARAM0 and HWPARAM1 (R25): the instance's parameters. -/
  hw : HwParams
  /-- ARG0-ARG11 (R27). -/
  args : Vector Word 12
  /-- RES0-RES3 (R28). -/
  res : Vector Word 4
  /-- The CMD read-back value (R29). -/
  cmd : Word
  /-- STATUS.BUSY (R42). -/
  busy : Bool
  /-- STATUS.CFG_VALID (R42). -/
  cfgValid : Bool
  /-- STATUS.CMD_OVR (R42). -/
  cmdOvr : Bool
  /-- ERR_CODE (R43). -/
  errCode : ErrCode
  /-- ERR_INFO (R43). -/
  errInfo : Word
  /-- IRQ_STATUS bits 4..0 (R44). -/
  irqStatus : BitVec 5
  /-- IRQ_ENABLE bits 4..0 (R44). -/
  irqEnable : BitVec 5
  /-- The staging registers CFG_* (R30-R39). -/
  cfg : Staging
  /-- CORR_RE, binary32 (R45). -/
  corrRe : F32
  /-- CORR_IM, binary32 (R45). -/
  corrIm : F32
  /-- ACT (R41). -/
  act : Active
  /-- The synchronizer (R40, R46). -/
  sync : Sync
  /-- The latched command (R27, R47). -/
  latch : Latch
  /-- DMEM (R61). -/
  mem : Memory
  /-- MODEL FIELD (log 1): the host's accesses and the engine's turns still to come, next first. -/
  pending : List Turn
  /-- MODEL FIELD (log 14): the bus replies the host has got, newest first. -/
  replies : List Reply
  /-- MODEL FIELD (log 6): how many commands a soft reset has aborted; indexes the free value of U3. -/
  aborts : Nat
  deriving DecidableEq, Repr

/-- Why a step stops. -/
inductive Fault where
  /-- A command, or a host read, reads DMEM word `index`, which nothing has written since power-on and so
  holds no value (R75, U1). Raised by every command that reads DMEM and by a host read of the DMEM window.
  SAFE: the hardware goes on with some value, of which the model claims nothing (log 5). -/
  | unwrittenDmem (index : Nat)
  deriving DecidableEq, Repr

/-- Why an instruction has no meaning. -/
inductive Refusal where
  /-- The instruction of this mnemonic has no meaning in the model yet. Raised by no arm of `exec`: every
  command is modelled. SAFE. -/
  | notModelled (mnemonic : String)
  deriving DecidableEq, Repr

/-- The staging registers at reset (R22, R260). -/
def Staging.reset : Staging where
  subc := 10
  pilot := 2
  symlen := 2048
  cpf := 0x3DCCCCCD
  modOrder := 4
  wsel := true
  ns := 3
  ne := 3
  thresh := 0x40800000
  disp := 10
  maxsym := 16
  preStart := 0
  preEnd := 0x1000
  capBase := 0x2000

/-- The active configuration at reset: every field 0 and both lists empty (R41, R260). -/
def Active.reset : Active where
  k := 0
  p := 0
  n := 0
  d := 0
  cp := 0
  r := 0
  w := 0
  l := 0
  c := 0
  m := 0
  pilots := []
  data := []
  ns := 0
  ne := 0
  thresh := 0
  disp := 0
  maxsym := 0
  preS := 0
  preE := 0
  cap := 0

/-- The synchronizer's initial state (R46, R157, R260). -/
def Sync.reset : Sync where
  mode := .searchingStart
  prevValid := false
  prev := []
  histS := []
  histE := []
  capLen := 0
  event := .none
  lag := 0
  stat := 0
  peak := 0
  bound := 0
  frameLen := 0

/-- DESIGN CHOICE (log 4): the latched set before the first acceptance. R260 gives it no value and no rule
reads it. -/
def Latch.reset : Latch where
  word := 0
  args := Vector.replicate 12 0
  staging := Staging.reset
  corrRe := 0x3F800000
  corrIm := 0

/-- The power-on state of an instance (R22, R260), with no host access to come. -/
def State.powerOn (hw : HwParams) : State where
  hw := hw
  args := Vector.replicate 12 0
  res := Vector.replicate 4 0
  cmd := 0
  busy := false
  cfgValid := false
  cmdOvr := false
  errCode := .ok
  errInfo := 0
  irqStatus := 0
  irqEnable := 0
  cfg := Staging.reset
  corrRe := 0x3F800000
  corrIm := 0
  act := Active.reset
  sync := Sync.reset
  latch := Latch.reset
  mem := []
  pending := []
  replies := []
  aborts := 0

/-- The machine right after power-on reset, at the default parameters of R7. -/
def State.reset : State := State.powerOn Config.defaultParams

end Sys2Proof.Machine
end

