-- ==== Sys2Proof/Machine/Flags.lean ====
section
/-!
DEFINITION. The status, error and interrupt bits (spec/10_state.md R42-R44, spec/60_exceptions.md R231,
R234, R239-R242). CORE has no arithmetic flags (R48).
-/

namespace Sys2Proof.Machine

/-- The number of an error code (R231). -/
def ErrCode.code (e : ErrCode) : BitVec 8 :=
  match e with
  | .ok => 0x00
  | .illegalOp => 0x01
  | .reservedBits => 0x02
  | .notConfigured => 0x03
  | .addrRange => 0x04
  | .lengthMismatch => 0x05
  | .lengthLimit => 0x06
  | .unsupportedModOrder => 0x07
  | .badConfig => 0x08
  | .symbolRange => 0x09
  | .frameDecodeMismatch => 0x0A
  | .capacity => 0x0B
  | .badParam => 0x0C

/-- The number of a synchronizer event (R40). -/
def PushEvent.code (e : PushEvent) : Nat :=
  match e with
  | .none => 0
  | .primed => 1
  | .noDetect => 2
  | .candidate => 3
  | .start => 4
  | .frame => 5
  | .tooLong => 6

/-- IRQ_STATUS.DONE (R44). -/
def irqDone : BitVec 5 := 0b00001

/-- IRQ_STATUS.ERR (R44). -/
def irqErr : BitVec 5 := 0b00010

/-- The IRQ_STATUS bit of a synchronizer event (R44, R241): START, FRAME or TOOLONG, and none for the
other events. -/
def PushEvent.irq (e : PushEvent) : BitVec 5 :=
  match e with
  | .start => 0b00100
  | .frame => 0b01000
  | .tooLong => 0b10000
  | .none | .primed | .noDetect | .candidate => 0

/-- The IRQ_STATUS bits a completion sets (R234): DONE, ERR if the code is not 0, and the event's bit. -/
def completionBits (code : ErrCode) (eventBits : BitVec 5) : BitVec 5 :=
  irqDone ||| (if code = .ok then 0 else irqErr) ||| eventBits

/-- A write of 1 clears a bit and a write of 0 leaves it (R44). -/
def clearOnes (status written : BitVec 5) : BitVec 5 := status &&& ~~~written

/-- STATUS.CAPTURING (R42). -/
def State.capturing (s : State) : Bool := s.sync.mode == .capturing

/-- A bit as a word at position `i`. -/
def bitAt (b : Bool) (i : Nat) : Word := if b then BitVec.ofNat 32 (2 ^ i) else 0

/-- STATUS as software reads it (R42). -/
def State.statusWord (s : State) : Word :=
  bitAt s.busy 0 ||| bitAt s.cfgValid 1 ||| bitAt s.capturing 2 ||| bitAt s.sync.prevValid 3 |||
    bitAt s.cmdOvr 4

/-- The interrupt output (R240). -/
def State.irq (s : State) : Bool := s.irqStatus &&& s.irqEnable != 0

end Sys2Proof.Machine
end

