-- ==== Sys2Proof/Machine/Ops.lean ====
section
/-!
DEFINITION. The operations every command shares: DMEM (spec/20_memory.md R60-R64, R67, R75), acceptance
(spec/60_exceptions.md R233), completion (R234) and ending in error (R232), which is CORE's way of taking an
exception: nothing is saved and there is nothing to return from (R236).
-/

namespace Sys2Proof.Machine

/-! ### One byte of memory -/

/-- The byte at an address; an address that is not listed holds no value. -/
def readByte (m : Memory) (a : Nat) : Option Byte :=
  match m with
  | [] => none
  | (b, v) :: rest => if a = b then some v else readByte rest a

/-- Sets the byte at an address, keeping the cells in rising order. -/
def writeByte (m : Memory) (a : Nat) (v : Byte) : Memory :=
  match m with
  | [] => [(a, v)]
  | (b, w) :: rest =>
    if a < b then (a, v) :: (b, w) :: rest
    else if a = b then (a, v) :: rest
    else (b, w) :: writeByte rest a v

/-- The canonical form: addresses strictly rising. An unlisted address has no value, so no listed cell can
equal what an unlisted address reads as. -/
def Memory.wf (m : Memory) : Bool :=
  match m with
  | [] => true
  | [_] => true
  | (a, _) :: (b, w) :: rest => decide (a < b) && Memory.wf ((b, w) :: rest)

/-! ### Words of DMEM -/

/-- Where the DMEM window begins in CORE's address space (R60). -/
def dmemBase : Nat := 0x00100000

/-- The address of byte lane `lane` of DMEM word `index` (R60, R63). -/
def byteAddr (index lane : Nat) : Nat := dmemBase + 4 * index + lane

/-- Byte lane `lane` of a word: bits 8·lane+7 .. 8·lane (R63). -/
def lane (w : Word) (i : Nat) : Byte := w.extractLsb' (8 * i) 8

/-- A word from its four byte lanes, lane 0 first (R63). -/
def wordOf (b0 b1 b2 b3 : Byte) : Word := b3 ++ b2 ++ b1 ++ b0

/-- DMEM[index], or nothing where the word was never written (R61, R75). -/
def readWord (m : Memory) (index : Nat) : Option Word :=
  match readByte m (byteAddr index 0), readByte m (byteAddr index 1),
      readByte m (byteAddr index 2), readByte m (byteAddr index 3) with
  | some b0, some b1, some b2, some b3 => some (wordOf b0 b1 b2 b3)
  | _, _, _, _ => none

/-- DMEM[index] := w, all four lanes (R61, R63). -/
def writeWord (m : Memory) (index : Nat) (w : Word) : Memory :=
  writeByte (writeByte (writeByte (writeByte m (byteAddr index 0) (lane w 0))
    (byteAddr index 1) (lane w 1)) (byteAddr index 2) (lane w 2)) (byteAddr index 3) (lane w 3)

/-- `MemWrite(a, n, v)` of R11: in increasing index order. -/
def writeWords (m : Memory) (index : Nat) (ws : List Word) : Memory :=
  match ws with
  | [] => m
  | w :: rest => writeWords (writeWord m index w) (index + 1) rest

/-! ### How a command ends -/

/-- Why a command writes nothing: an error it raises (R232), or a read of a word that holds no value. -/
inductive Stop where
  | error (code : ErrCode) (info : Word)
  | fault (f : Fault)
  deriving DecidableEq, Repr

/-- What a command that passes its checks does (R67): the state with its registers written, the DMEM
regions it then writes, in the order its rule states, and the event bits its completion sets (R234). -/
structure Effect where
  post : State
  writes : List (Nat × List Word)
  eventBits : BitVec 5
  deriving DecidableEq, Repr

/-- An effect on registers and DMEM with no event. -/
def Effect.of (post : State) (writes : List (Nat × List Word)) : Effect := ⟨post, writes, 0⟩

/-- `MemRead(a, n)` of R11: the n words from index a on. -/
def memRead (m : Memory) (index n : Nat) : Except Stop (List Word) :=
  match n with
  | 0 => .ok []
  | n + 1 =>
    match readWord m index with
    | none => .error (.fault (.unwrittenDmem index))
    | some w =>
      match memRead m (index + 1) n with
      | .error e => .error e
      | .ok ws => .ok (w :: ws)

/-- The regions written in the stated order, each in increasing index order: where two overlap, the later
wins (R67). -/
def applyWrites (m : Memory) (writes : List (Nat × List Word)) : Memory :=
  match writes with
  | [] => m
  | (index, ws) :: rest => applyWrites (writeWords m index ws) rest

/-- Completion (R234): ERR_CODE and ERR_INFO, the IRQ_STATUS bits, BUSY = 0. -/
def State.complete (s : State) (code : ErrCode) (info : Word) (eventBits : BitVec 5) : State :=
  { s with
    errCode := code
    errInfo := info
    irqStatus := s.irqStatus ||| completionBits code eventBits
    busy := false }

/-- `raise Error(code, info)` (R232): nothing is written but the completion registers (R236). -/
def State.raiseError (s : State) (code : ErrCode) (info : Word) : State := s.complete code info 0

/-- The writes of a successful command, then its completion (R67, R234). -/
def Effect.commit (e : Effect) : State :=
  { e.post with mem := applyWrites e.post.mem e.writes }.complete .ok 0 e.eventBits

/-- A command's last step: its effect, or its error, or the fault of reading a word without a value. -/
def finish (s : State) (r : Except Stop Effect) : Host.Outcome State Fault Refusal :=
  match r with
  | .ok e => .next e.commit
  | .error (.error code info) => .next (s.raiseError code info)
  | .error (.fault f) => .fault f

/-- Acceptance of a command word by an idle engine (R233): the word, the operand registers and the
registers read at acceptance (R69) are latched, CMD reads back the word, BUSY = 1. -/
def State.accept (s : State) (w : Word) : State :=
  { s with
    cmd := w
    busy := true
    latch :=
      { word := w
        args := s.args
        staging := s.cfg
        corrRe := s.corrRe
        corrIm := s.corrIm } }

/-- The state reset of R157: MODE, PREV_VALID, the histories, CAPLEN and every SYNC_* register. -/
def State.resetSync (s : State) : State := { s with sync := Sync.reset }

end Sys2Proof.Machine
end

