-- ==== Sys2Proof/Machine/Operands.lean ====
section
/-!
DEFINITION. How a command reads its operands and checks them (spec/30_encoding.md R81, R85;
spec/20_memory.md R62, R64, R67; spec/60_exceptions.md R231, R235).
-/

namespace Sys2Proof.Machine

/-- `ARG[i]` (R11): operand register i as latched at acceptance (R27), an unsigned number (R81). -/
def State.arg (s : State) (i : Fin 12) : Nat := s.latch.args[i].toNat

/-- A check of a command's rule: if it fails the command ends with this error (R232). -/
def check (holds : Bool) (code : ErrCode) (info : Nat) : Except Stop Unit :=
  if holds then .ok () else .error (.error code (BitVec.ofNat 32 info))

/-- The region check of R62, on unbounded numbers: a region of length 0 is valid at any base. -/
def regionValid (dmemWords base len : Nat) : Bool := len == 0 || decide (base + len ≤ dmemWords)

/-- `valid(ARG[i], len)` else ADDR_RANGE with info i (R62, R231). -/
def checkRegion (s : State) (i : Fin 12) (len : Nat) : Except Stop Unit :=
  check (regionValid s.hw.dmemWords (s.arg i) len) .addrRange i.val

/-- CFG_VALID = 1 else NOT_CONFIGURED with info 0 (R231). -/
def checkConfigured (s : State) : Except Stop Unit := check s.cfgValid .notConfigured 0

/-- The array of n words at ARG[i] (R11). -/
def readArg (s : State) (i : Fin 12) (n : Nat) : Except Stop (List Word) := memRead s.mem (s.arg i) n

/-- The RES registers (R28) with one of them written. -/
def State.setRes (s : State) (j : Fin 4) (w : Word) : State := { s with res := s.res.set j w }

/-- The byte array packed in a list of words: four bytes to a word, lane 0 first (R64). -/
def bytesOfWords (ws : List Word) : List Byte :=
  ws.flatMap fun w => [lane w 0, lane w 1, lane w 2, lane w 3]

/-- The words that hold a byte array: lanes past its end are 0 (R64). -/
def wordsOfBytes (bs : List Byte) : List Word :=
  match bs with
  | b0 :: b1 :: b2 :: b3 :: rest => wordOf b0 b1 b2 b3 :: wordsOfBytes rest
  | [b0, b1, b2] => [wordOf b0 b1 b2 0]
  | [b0, b1] => [wordOf b0 b1 0 0]
  | [b0] => [wordOf b0 0 0 0]
  | [] => []

/-- ceil(a / b) for b > 0 (R10). -/
def ceilDiv (a b : Nat) : Nat := (a + (b - 1)) / b

end Sys2Proof.Machine
end

