-- ==== Sys2Proof/Machine/Bitstream.lean ====
section
/-!
DEFINITION. BIT_PACK and BIT_UNPACK (spec/46_bitstream.md R215-R219). Neither needs a configuration.

The stream of R215 takes each byte's bits LSB first. It is held as the number whose bit x is stream bit x: a
byte sequence is its little-endian number, and an n-bit symbol array its little-endian number in base 2^n.
Bits past the end are 0, which is the padding (log 18).
-/

namespace Sys2Proof.Machine

/-- The stream of a byte sequence (R215): bit 8j + i is bit i of byte j. -/
def streamOfBytes (bs : List Byte) : Nat :=
  match bs with
  | [] => 0
  | b :: rest => b.toNat + 2 ^ 8 * streamOfBytes rest

/-- The stream of an n-bit symbol array (R215 read backwards): bit t·n + i is bit i of symbol t, for symbols
below 2^n. -/
def streamOfSymbols (n : Nat) (syms : List Word) : Nat :=
  match syms with
  | [] => 0
  | w :: rest => w.toNat + 2 ^ n * streamOfSymbols n rest

/-- The first `count` symbols of n bits of a stream (R215): symbol t is bits t·n … t·n + n − 1. -/
def symbolsOfStream (n count stream : Nat) : List Word :=
  match count with
  | 0 => []
  | count + 1 => BitVec.ofNat 32 (stream % 2 ^ n) :: symbolsOfStream n count (stream / 2 ^ n)

/-- The first `count` bytes of a stream (R215). -/
def bytesOfStream (count stream : Nat) : List Byte :=
  match count with
  | 0 => []
  | count + 1 => BitVec.ofNat 8 (stream % 2 ^ 8) :: bytesOfStream count (stream / 2 ^ 8)

/-- `le32(v)` (R216): four bytes, byte 0 the least significant. -/
def le32 (v : Nat) : List Byte := bytesOfStream 4 v

/-- The number of a little-endian byte field (R216). -/
def ofLe (bs : List Byte) : Nat := streamOfBytes bs

/-- T of R217: ceil(bits/n) rounded up to a multiple of k, for a payload of `len` bytes. -/
def packedCount (n k len : Nat) : Nat := ceilDiv (ceilDiv (8 * (8 + len)) n) k * k

/-- The packed byte sequence of R216: the two header fields, then the payload. -/
def framed (count : Nat) (payload : List Byte) : List Byte :=
  le32 count ++ le32 payload.length ++ payload

/-- The symbols of R217: `count` of n bits, zero past the end of the stream. -/
def packSymbols (n count : Nat) (payload : List Byte) : List Word :=
  symbolsOfStream n count (streamOfBytes (framed count payload))

/-- The parameter checks of R217 and R218: n in 1 … 16, k in 1 … 65535. -/
def checkPacking (n k : Nat) : Except Stop Unit := do
  check (decide (1 ≤ n) && decide (n ≤ 16)) .badParam 3
  check (decide (1 ≤ k) && decide (k ≤ 65535)) .badParam 4

/-- BIT_PACK (R217). -/
def effectBitPack (s : State) : Except Stop Effect := do
  let len := s.arg 1
  let n := s.arg 3
  let k := s.arg 4
  checkPacking n k
  let count := packedCount n k len
  checkRegion s 0 (ceilDiv len 4)
  checkRegion s 2 count
  check (decide (count ≤ s.arg 5)) .capacity count
  let ws ← readArg s 0 (ceilDiv len 4)
  let syms := packSymbols n count ((bytesOfWords ws).take len)
  return Effect.of (s.setRes 0 (BitVec.ofNat 32 count)) [(s.arg 2, syms)]

/-- The index of the first symbol that is not below `bound`, counted from `i` (R218). -/
def firstBad (bound i : Nat) (syms : List Word) : Option Nat :=
  match syms with
  | [] => none
  | w :: rest => if w.toNat < bound then firstBad bound (i + 1) rest else some i

/-- Every symbol is below 2^n, else SYMBOL_RANGE with the first bad index (R218). -/
def checkSymbols (n : Nat) (syms : List Word) : Except Stop Unit :=
  match firstBad (2 ^ n) 0 syms with
  | none => .ok ()
  | some i => .error (.error .symbolRange (BitVec.ofNat 32 i))

/-- The header and length checks of R218 on the recovered bytes Y of an array of `count` symbols. On success
the declared payload length. -/
def checkHeader (count : Nat) (bytes : List Byte) : Except Stop Nat := do
  check (decide (8 ≤ bytes.length)) .frameDecodeMismatch 1
  check (decide (ofLe (bytes.take 4) = count)) .frameDecodeMismatch 2
  let declared := ofLe ((bytes.drop 4).take 4)
  check (decide (declared ≤ bytes.length - 8)) .frameDecodeMismatch 3
  return declared

/-- BIT_UNPACK (R218). The data-dependent checks precede the capacity and output-region checks (R235). -/
def effectBitUnpack (s : State) : Except Stop Effect := do
  let count := s.arg 1
  let n := s.arg 3
  checkPacking n (s.arg 4)
  checkRegion s 0 count
  let syms ← readArg s 0 count
  checkSymbols n syms
  let bytes := bytesOfStream (count * n / 8) (streamOfSymbols n syms)
  let declared ← checkHeader count bytes
  check (decide (declared ≤ s.arg 5)) .capacity declared
  checkRegion s 2 (ceilDiv declared 4)
  let payload := (bytes.drop 8).take declared
  return Effect.of (s.setRes 0 (BitVec.ofNat 32 declared)) [(s.arg 2, wordsOfBytes payload)]

/-- BIT_PACK. -/
def execBitPack (s : State) : Host.Outcome State Fault Refusal := finish s (effectBitPack s)

/-- BIT_UNPACK. -/
def execBitUnpack (s : State) : Host.Outcome State Fault Refusal := finish s (effectBitUnpack s)

end Sys2Proof.Machine
end

