-- ==== Sys2Proof/Machine/Float.lean ====
section
/-!
DEFINITION. The binary32 operations of spec/00_scope.md R12: IEEE 754, round to nearest with ties to even,
each operation rounded once, no fused multiply-add, subnormals kept, every NaN result the canonical NaN
(decision D10; log 10).

Every finite binary32 value is a whole number of units of 2^-149, so an operation is computed exactly on
whole numbers (or a quotient of them) and rounded once at the end.
-/

namespace Sys2Proof.Machine

/-- What a binary32 pattern stands for. `finite sign units` is (-1)^sign * units * 2^-149, the sign kept
for a zero. -/
inductive FVal where
  | nan
  | inf (sign : Bool)
  | finite (sign : Bool) (units : Nat)
  deriving DecidableEq, Repr

/-- The canonical NaN (D10). -/
def canonicalNaN : F32 := 0x7FC00000

/-- +1.0. -/
def fOne : F32 := 0x3F800000

/-- +0.0. -/
def fZero : F32 := 0x00000000

/-- The sign bit. -/
def signBit (a : F32) : Bool := a.getLsbD 31

/-- The biased exponent, bits 30..23. -/
def expField (a : F32) : Nat := a.toNat / 2 ^ 23 % 2 ^ 8

/-- The fraction, bits 22..0. -/
def fracField (a : F32) : Nat := a.toNat % 2 ^ 23

/-- The magnitude of a finite pattern, in units of 2^-149. -/
def unitsOf (a : F32) : Nat :=
  if expField a = 0 then fracField a else (2 ^ 23 + fracField a) * 2 ^ (expField a - 1)

/-- The value of a pattern. -/
def valueOf (a : F32) : FVal :=
  if expField a = 255 then
    if fracField a = 0 then .inf (signBit a) else .nan
  else .finite (signBit a) (unitsOf a)

/-- A sign on magnitude bits. -/
def withSign (sign : Bool) (magnitude : Nat) : F32 :=
  BitVec.ofNat 32 (magnitude + if sign then 2 ^ 31 else 0)

/-- A signed infinity. -/
def infOf (sign : Bool) : F32 := withSign sign 0x7F800000

/-- A whole part rounded by what is left over: up above a half, and to even at a half. -/
def roundHalfEven (quot rest divisor : Nat) : Nat :=
  if 2 * rest < divisor then quot
  else if 2 * rest = divisor then quot + quot % 2
  else quot + 1

/-- The magnitude bits of the binary32 value nearest to `num / den` units of 2^-149, ties to even; past
the largest finite value, infinity. The last kept bit has weight 2^`drop` units, where `drop` leaves 24
significant bits, or is 0 for a subnormal. -/
def roundUnits (num den : Nat) : Nat :=
  let whole := num / den
  let drop := if whole < 2 ^ 24 then 0 else Nat.log2 whole - 23
  let divisor := den * 2 ^ drop
  let bits := drop * 2 ^ 23 + roundHalfEven (num / divisor) (num % divisor) divisor
  if bits < 0x7F800000 then bits else 0x7F800000

/-- `fneg` of R12: flips the sign bit. -/
def fneg (a : F32) : F32 := a ^^^ 0x80000000

/-- `fabs` of R12: clears the sign bit. -/
def fabs (a : F32) : F32 := a &&& 0x7FFFFFFF

/-- The sum of two finite values. Values of opposite sign that cancel give +0; equal signs keep the sign,
so that (-0) + (-0) = -0. -/
def addFinite (sa : Bool) (ua : Nat) (sb : Bool) (ub : Nat) : F32 :=
  if sa = sb then withSign sa (roundUnits (ua + ub) 1)
  else if ub < ua then withSign sa (roundUnits (ua - ub) 1)
  else if ua < ub then withSign sb (roundUnits (ub - ua) 1)
  else fZero

/-- `fadd` of R12. -/
def fadd (a b : F32) : F32 :=
  match valueOf a, valueOf b with
  | .nan, _ => canonicalNaN
  | _, .nan => canonicalNaN
  | .inf sa, .inf sb => if sa = sb then infOf sa else canonicalNaN
  | .inf sa, .finite _ _ => infOf sa
  | .finite _ _, .inf sb => infOf sb
  | .finite sa ua, .finite sb ub => addFinite sa ua sb ub

/-- `fsub` of R12: the sum with the negated second operand (IEEE 754). -/
def fsub (a b : F32) : F32 := fadd a (fneg b)

/-- `fmul` of R12. -/
def fmul (a b : F32) : F32 :=
  match valueOf a, valueOf b with
  | .nan, _ => canonicalNaN
  | _, .nan => canonicalNaN
  | .inf sa, .inf sb => infOf (sa ^^ sb)
  | .inf sa, .finite sb ub => if ub = 0 then canonicalNaN else infOf (sa ^^ sb)
  | .finite sa ua, .inf sb => if ua = 0 then canonicalNaN else infOf (sa ^^ sb)
  | .finite sa ua, .finite sb ub => withSign (sa ^^ sb) (roundUnits (ua * ub) (2 ^ 149))

/-- `fdiv` of R12. -/
def fdiv (a b : F32) : F32 :=
  match valueOf a, valueOf b with
  | .nan, _ => canonicalNaN
  | _, .nan => canonicalNaN
  | .inf _, .inf _ => canonicalNaN
  | .inf sa, .finite sb _ => infOf (sa ^^ sb)
  | .finite sa _, .inf sb => withSign (sa ^^ sb) 0
  | .finite sa ua, .finite sb ub =>
    if ub = 0 then
      if ua = 0 then canonicalNaN else infOf (sa ^^ sb)
    else withSign (sa ^^ sb) (roundUnits (ua * 2 ^ 149) ub)

/-- A NaN: exponent all ones and a fraction that is not 0. -/
def isNaN (a : F32) : Bool := expField a == 255 && fracField a != 0

/-- Where a pattern that is no NaN stands in the order of values: +0 and -0 stand at the same place. -/
def orderKey (a : F32) : Int :=
  if signBit a then -((a.toNat % 2 ^ 31 : Nat) : Int) else ((a.toNat % 2 ^ 31 : Nat) : Int)

/-- `fgt` of R12: false when either operand is NaN. -/
def fgt (a b : F32) : Bool := !isNaN a && !isNaN b && decide (orderKey b < orderKey a)

/-- `fge` of R12. -/
def fge (a b : F32) : Bool := !isNaN a && !isNaN b && decide (orderKey b ≤ orderKey a)

/-- `feq` of R12: +0 equals -0. -/
def feq (a b : F32) : Bool := !isNaN a && !isNaN b && decide (orderKey a = orderKey b)

/-- `RN32` of R12 for the real number (-1)^sign * num / den. An exact zero gives +0. -/
def rn32 (sign : Bool) (num den : Nat) : F32 :=
  if num = 0 then fZero else withSign sign (roundUnits (num * 2 ^ 149) den)

/-- `F(n)` of R12: exact for n ≤ 2^24. -/
def fOfNat (n : Nat) : F32 := rn32 false n 1

/-- A complex number in binary32: one element of a complex array (R13). -/
structure Cx where
  re : F32
  im : F32
  deriving DecidableEq, Repr

/-- +0.0 + 0.0i. -/
def cxZero : Cx := ⟨fZero, fZero⟩

/-- `cmul` of R12 (D15). -/
def cmul (a b : Cx) : Cx :=
  ⟨fsub (fmul a.re b.re) (fmul a.im b.im), fadd (fmul a.im b.re) (fmul a.re b.im)⟩

/-- The complex array of two arrays of equal length (R13). -/
def cxZip (re im : List F32) : List Cx := List.zipWith Cx.mk re im

/-- The real parts of a complex array. -/
def reals (x : List Cx) : List F32 := x.map Cx.re

/-- The imaginary parts of a complex array. -/
def imags (x : List Cx) : List F32 := x.map Cx.im

end Sys2Proof.Machine
end

