-- ==== Sys2Proof/Machine/Trig.lean ====
section
/-!
DEFINITION. The seeds of the trigonometric recurrence (spec/41_fft.md R122): RN32(cos(2π/d)) and
RN32(sin(2π/d)), the correctly rounded values.

They are computed in fixed point with 128 fractional bits by the Taylor series. 128 bits decide the
rounding for every d up to 131072, the largest a legal instance uses (log 9). The angles whose sine or cosine
is an exact zero are listed, so that an exact zero gives +0.
-/

namespace Sys2Proof.Machine

/-- How many fractional bits a fixed-point number has here. -/
def trigBits : Nat := 128

/-- floor(π * 2^128). -/
def piFixed : Nat := 0x3243f6a8885a308d313198a2e03707344

/-- The angle 2π/d in fixed point. -/
def angleFixed (d : Nat) : Nat := 2 * piFixed / d

/-- The terms t, t·x²/((k+1)(k+2)), … of a Taylor series with alternating signs, added up. `terms` is
how many; `x2` is x² with 256 fractional bits. -/
def alternatingSum (terms k : Nat) (term : Nat) (x2 : Nat) : Int :=
  match terms with
  | 0 => 0
  | rest + 1 =>
    (term : Int) - alternatingSum rest (k + 2) (term * x2 / (2 ^ (2 * trigBits) * ((k + 1) * (k + 2)))) x2

/-- cos of a fixed-point angle below π, in fixed point. -/
def cosFixed (x : Nat) : Int := alternatingSum 30 0 (2 ^ trigBits) (x * x)

/-- sin of a fixed-point angle below π, in fixed point. -/
def sinFixed (x : Nat) : Int := alternatingSum 30 1 x (x * x)

/-- The binary32 value nearest a fixed-point number. -/
def rn32Fixed (v : Int) : F32 := rn32 (decide (v < 0)) v.natAbs (2 ^ trigBits)

/-- The seed (c1, s1) of R122: the point at the angle 2π/d. -/
def trigSeed (d : Nat) : Cx :=
  match d with
  | 1 => ⟨fOne, fZero⟩
  | 2 => ⟨fneg fOne, fZero⟩
  | 4 => ⟨fZero, fOne⟩
  | _ => ⟨rn32Fixed (cosFixed (angleFixed d)), rn32Fixed (sinFixed (angleFixed d))⟩

end Sys2Proof.Machine
end

