-- ==== Sys2Proof/Machine/Fft.lean ====
section
/-!
DEFINITION. The transforms of spec/41_fft.md: the trigonometric table (R122), the radix-2 transform (R123),
Bluestein's transform (R124, R125), the length dispatch (R121), the inverse (R126) and circular convolution
(R127). A complex array is a list of complex numbers (R13). The order of the binary32 operations is the
spec's, step by step.
-/

namespace Sys2Proof.Machine

/-- One rotation of the recurrence of R122 by the seed. -/
def rotate (seed cur : Cx) : Cx :=
  ⟨fsub (fmul cur.re seed.re) (fmul cur.im seed.im), fadd (fmul cur.im seed.re) (fmul cur.re seed.im)⟩

/-- `count` values of the recurrence from `cur` on. -/
def rotations (seed : Cx) : Nat → Cx → List Cx
  | 0, _ => []
  | count + 1, cur => cur :: rotations seed count (rotate seed cur)

/-- `TABLE(count, d)` of R122: the C list as real parts, the S list as imaginary parts. -/
def trigTable (count d : Nat) : List Cx := rotations (trigSeed d) count ⟨fOne, fZero⟩

/-- `rev_b(i)` of R123: the `b` low bits of `i` in reverse order. -/
def bitReverse : Nat → Nat → Nat
  | 0, _ => 0
  | b + 1, i => i % 2 * 2 ^ b + bitReverse b (i / 2)

/-- Element `i` of an array; an index outside it is read by no rule. -/
def Cx.at (x : Array Cx) (i : Nat) : Cx := x.getD i cxZero

/-- The bit-reversal permutation of R123: swapping i with rev_b(i) puts element rev_b(i) at i. -/
def bitReversed (b : Nat) (x : Array Cx) : Array Cx :=
  ((List.range (2 ^ b)).map fun i => Cx.at x (bitReverse b i)).toArray

/-- One butterfly of R123 on elements j and l with twiddle (C[k], S[k]): the new element j and the new
element l, both from the values before the butterfly. -/
def butterfly (xj xl tw : Cx) : Cx × Cx :=
  let tre := fadd (fmul xl.re tw.re) (fmul xl.im tw.im)
  let tim := fsub (fmul xl.im tw.re) (fmul xl.re tw.im)
  (⟨fadd xj.re tre, fadd xj.im tim⟩, ⟨fsub xj.re tre, fsub xj.im tim⟩)

/-- The butterflies of one block of R123: `half` of them, from `base` on, the twiddle index `step` apart.
The j outputs fill the first half of the block and the l outputs the second. -/
def butterflyBlock (half step base : Nat) (tw x : Array Cx) : List Cx :=
  let outs := (List.range half).map fun t =>
    butterfly (Cx.at x (base + t)) (Cx.at x (base + t + half)) (Cx.at tw (t * step))
  outs.map Prod.fst ++ outs.map Prod.snd

/-- One pass of R123 at block size `size`, over all blocks of an array of length n. -/
def butterflyPass (n size : Nat) (tw x : Array Cx) : Array Cx :=
  ((List.range (n / size)).flatMap fun block =>
    butterflyBlock (size / 2) (n / size) (block * size) tw x).toArray

/-- `FWD2` of R123 on an array of length 2^b: block sizes 2, 4, …, 2^b. -/
def fwd2 (b : Nat) (x : List Cx) : List Cx :=
  let n := 2 ^ b
  let tw := (trigTable (n / 2) n).toArray
  ((List.range b).foldl (fun y pass => butterflyPass n (2 ^ (pass + 1)) tw y)
    (bitReversed b x.toArray)).toList

/-- The exponent of the smallest power of two that is at least `q` (R125). -/
def ceilLog2 (q : Nat) : Nat := if q ≤ 1 then 0 else Nat.log2 (q - 1) + 1

/-- `CHIRP(n)` of R124: the factor of i is table entry i² mod 2n. -/
def chirp (n : Nat) : List Cx :=
  let table := (trigTable (2 * n) (2 * n)).toArray
  (List.range n).map fun i => Cx.at table (i * i % (2 * n))

/-- (re + i·im)·(cc − i·ss) in the operation order of R125. -/
def mulConj (x c : Cx) : Cx :=
  ⟨fadd (fmul x.re c.re) (fmul x.im c.im), fsub (fmul x.im c.re) (fmul x.re c.im)⟩

/-- The real and imaginary parts exchanged (R126). -/
def Cx.swap (x : Cx) : Cx := ⟨x.im, x.re⟩

/-- `INV` of R126 over a forward transform of the same length. -/
def invWith (fwd : List Cx → List Cx) (x : List Cx) : List Cx :=
  (fwd (x.map Cx.swap)).map fun z => ⟨fdiv z.im (fOfNat x.length), fdiv z.re (fOfNat x.length)⟩

/-- `CONV` of R127 over a forward transform of the same length. -/
def convWith (fwd : List Cx → List Cx) (x y : List Cx) : List Cx :=
  invWith fwd (List.zipWith cmul (fwd x) (fwd y))

/-- The list b of R125: cc, ss at i and at m − i, and zero between. -/
def bluesteinKernel (m : Nat) (c : List Cx) : List Cx :=
  c ++ List.replicate (m - (2 * c.length - 1)) cxZero ++ c.tail.reverse

/-- `FWD_BLUESTEIN` of R125. The inner convolution has a power-of-two length, where FWD is FWD2. -/
def fwdBluestein (x : List Cx) : List Cx :=
  let n := x.length
  let b := ceilLog2 (2 * n - 1)
  let c := chirp n
  let a := List.zipWith mulConj x c ++ List.replicate (2 ^ b - n) cxZero
  List.zipWith mulConj (convWith (fwd2 b) a (bluesteinKernel (2 ^ b) c)) c

/-- `n` is a power of two (R121); 1 counts. -/
def isPow2 (n : Nat) : Bool := n == 2 ^ Nat.log2 n

/-- `FWD` of R121. -/
def fwd (x : List Cx) : List Cx :=
  if x.length = 0 then []
  else if isPow2 x.length then fwd2 (Nat.log2 x.length) x
  else fwdBluestein x

/-- `INV` of R126. -/
def inv (x : List Cx) : List Cx := invWith fwd x

/-- `CONV` of R127. -/
def conv (x y : List Cx) : List Cx := convWith fwd x y

end Sys2Proof.Machine
end

