-- ==== Sys2Proof/Machine/Correlate.lean ====
section
/-!
DEFINITION. The sliding-window correlator and the frame synchronizer: XCORR, SYNC_PUSH and SYNC_RESET
(spec/42_sync.md R140-R158).
-/

namespace Sys2Proof.Machine

/-- `CORR` of R141: the probe of 2W samples convolved with the reversed preamble of W samples at length L,
read off at the lags 0 … W−1. The imaginary part is discarded. -/
def correlate (w l : Nat) (probe pre : List F32) : List F32 :=
  let a := probe.map (Cx.mk · fZero) ++ List.replicate (l - 2 * w) cxZero
  let b := pre.reverse.map (Cx.mk · fZero) ++ List.replicate (l - w) cxZero
  ((reals (conv a b)).drop (w - 1)).take w

/-- The best magnitude so far and its lag (R143). -/
structure Peak where
  lag : Nat
  peak : F32
  deriving DecidableEq, Repr

/-- The search of R143 over the magnitudes from lag `lag` on: strictly greater replaces, so ties keep the
lowest lag. -/
def peakFrom (lag : Nat) (best : Peak) (mags : List F32) : Peak :=
  match mags with
  | [] => best
  | m :: rest => peakFrom (lag + 1) (if fgt m best.peak then ⟨lag, m⟩ else best) rest

/-- The peak of R143: it begins as the magnitude at lag 0. -/
def findPeak (mags : List F32) : Peak := peakFrom 1 ⟨0, mags.headD fZero⟩ mags.tail

/-- S of R143: the magnitudes added up in increasing lag order, from +0. -/
def sumInOrder (xs : List F32) : F32 := xs.foldl fadd fZero

/-- What a correlation observes (R143): the peak's lag, the peak and the detection statistic. -/
structure Detection where
  lag : Nat
  peak : F32
  stat : F32
  deriving DecidableEq, Repr

/-- R143 on the W correlation values. -/
def detect (w : Nat) (c : List F32) : Detection :=
  let mags := c.map fabs
  let best := findPeak mags
  let mean := fdiv (sumInOrder mags) (fOfNat w)
  { lag := best.lag
    peak := best.peak
    stat := if feq mean fZero then fZero else fdiv best.peak mean }

/-- The detection test of R144. -/
def passes (thresh : F32) (d : Detection) : Bool := fgt d.stat thresh

/-- The candidate history of R145 after a correlation: cleared by a failed test, otherwise a FIFO of
capacity `cap` that evicts its oldest entry. -/
def updateHistory (cap : Nat) (pass : Bool) (h : List Nat) (lag : Nat) : List Nat :=
  if pass then (if h.length = cap then h.tail else h) ++ [lag] else []

/-- Σ h_i of R146. -/
def histSum (h : List Nat) : Nat := h.sum

/-- Σ h_i² of R146. -/
def histSumSq (h : List Nat) : Nat := (h.map fun x => x * x).sum

/-- `accept` of R146 for a full history of n entries: N·S2 − S1² ≤ N²·DISP², the difference taken over
the integers. -/
def dispersionOk (n disp : Nat) (h : List Nat) : Bool :=
  decide ((n * histSumSq h : Int) - histSum h * histSum h ≤ n * n * disp * disp)

/-- b of R146: the mean lag rounded half up. -/
def boundaryOf (n : Nat) (h : List Nat) : Nat := (2 * histSum h + n) / (2 * n)

/-- What a push does to the synchronizer and to the capture buffer. -/
structure PushResult where
  sync : Sync
  writes : List (Nat × List Word)
  deriving DecidableEq, Repr

/-- The start step (R152): capture begins at sample b of the current window. -/
def startStep (a : Active) (sy : Sync) (cur : List F32) (b : Nat) : PushResult :=
  { sync :=
      { sy with
        mode := .capturing
        histS := []
        histE := []
        capLen := a.w - b
        bound := BitVec.ofNat 32 b
        event := .start }
    writes := [(a.cap, cur.drop b)] }

/-- The length of the frame an end boundary emits (R154): max(0, CAPLEN + b − NE·W). -/
def frameLength (a : Active) (capLen b : Nat) : Nat := capLen + b - a.ne * a.w

/-- The end step (R154): the frame is emitted and the current window is not appended. -/
def endStep (a : Active) (sy : Sync) (b : Nat) : PushResult :=
  { sync :=
      { sy with
        mode := .searchingStart
        histS := []
        histE := []
        capLen := 0
        bound := BitVec.ofNat 32 b
        frameLen := BitVec.ofNat 32 (frameLength a sy.capLen b)
        event := .frame }
    writes := [] }

/-- The capture step (R153, R155): the window is appended, or the capture is aborted where it would pass the
ceiling. -/
def captureStep (a : Active) (sy : Sync) (cur : List F32) : PushResult :=
  if a.c < sy.capLen + a.w then
    { sync :=
        { sy with
          mode := .searchingStart
          histS := []
          histE := []
          capLen := 0
          event := .tooLong }
      writes := [] }
  else
    { sync := { sy with capLen := sy.capLen + a.w }
      writes := [(a.cap + sy.capLen, cur)] }

/-- R145 while searching: HIST_S, and the event of the push so far. -/
def recordStart (a : Active) (sy : Sync) (d : Detection) : Sync :=
  { sy with
    histS := updateHistory a.ns (passes a.thresh d) sy.histS d.lag
    event := if passes a.thresh d then .candidate else .noDetect }

/-- R145 while capturing: HIST_E, and the event of the push so far. -/
def recordEnd (a : Active) (sy : Sync) (d : Detection) : Sync :=
  { sy with
    histE := updateHistory a.ne (passes a.thresh d) sy.histE d.lag
    event := if passes a.thresh d then .candidate else .noDetect }

/-- A history just updated is full and accepted (R145, R146). -/
def boundaryFound (cap disp : Nat) (pass : Bool) (h : List Nat) : Bool :=
  pass && h.length == cap && dispersionOk cap disp h

/-- A correlating push in SEARCHING_START (R151, R152). -/
def pushSearching (a : Active) (sy : Sync) (d : Detection) (cur : List F32) : PushResult :=
  let sy := recordStart a sy d
  if boundaryFound a.ns a.disp (passes a.thresh d) sy.histS then
    startStep a sy cur (boundaryOf a.ns sy.histS)
  else { sync := sy, writes := [] }

/-- A correlating push in CAPTURING (R153-R155). -/
def pushCapturing (a : Active) (sy : Sync) (d : Detection) (cur : List F32) : PushResult :=
  let sy := recordEnd a sy d
  if boundaryFound a.ne a.disp (passes a.thresh d) sy.histE then
    endStep a sy (boundaryOf a.ne sy.histE)
  else captureStep a sy cur

/-- A correlating push (R149), with what the correlation observed recorded in the registers (R147). -/
def pushCorrelated (a : Active) (sy : Sync) (d : Detection) (cur : List F32) : PushResult :=
  let sy := { sy with lag := BitVec.ofNat 32 d.lag, peak := d.peak, stat := d.stat }
  match sy.mode with
  | .searchingStart => pushSearching a sy d cur
  | .capturing => pushCapturing a sy d cur

/-- A priming push (R150). -/
def pushPriming (sy : Sync) : PushResult := { sync := { sy with event := .primed }, writes := [] }

/-- The waveform a push correlates against (R149): the start waveform while searching, else the end one. -/
def preambleBase (a : Active) (mode : SyncMode) : Nat :=
  match mode with
  | .searchingStart => a.preS
  | .capturing => a.preE

/-- The window becomes the previous window (R149). -/
def cachedWindow (r : PushResult) (cur : List F32) : PushResult :=
  { r with sync := { r.sync with prev := cur, prevValid := true } }

/-- The RES registers of SYNC_PUSH (R149): event code, frame length on FRAME, SYNC_LAG, SYNC_STAT. -/
def pushRes (sy : Sync) : Vector Word 4 :=
  #v[BitVec.ofNat 32 sy.event.code, if sy.event = .frame then sy.frameLen else 0, sy.lag, sy.stat]

/-- The effect of a push result on the state. -/
def pushEffect (s : State) (r : PushResult) : Effect :=
  { post := { s with sync := r.sync, res := pushRes r.sync }
    writes := r.writes
    eventBits := r.sync.event.irq }

/-- SYNC_PUSH (R149). -/
def effectSyncPush (s : State) : Except Stop Effect := do
  let a := s.act
  checkConfigured s
  checkRegion s 0 a.w
  let cur ← readArg s 0 a.w
  if s.sync.prevValid then
    let pre ← memRead s.mem (preambleBase a s.sync.mode) a.w
    let d := detect a.w (correlate a.w a.l (s.sync.prev ++ cur) pre)
    return pushEffect s (cachedWindow (pushCorrelated a s.sync d cur) cur)
  else return pushEffect s (cachedWindow (pushPriming s.sync) cur)

/-- The four results of XCORR (R148). -/
def xcorrRes (thresh : F32) (d : Detection) : Vector Word 4 :=
  #v[BitVec.ofNat 32 d.lag, d.peak, d.stat, if passes thresh d then 1 else 0]

/-- XCORR against the waveform at DMEM index `preBase` (R148). -/
def effectXcorrWith (preBase : Nat) (s : State) : Except Stop Effect := do
  let a := s.act
  checkConfigured s
  checkRegion s 0 (2 * a.w)
  checkRegion s 1 a.w
  let probe ← readArg s 0 (2 * a.w)
  let pre ← memRead s.mem preBase a.w
  let c := correlate a.w a.l probe pre
  return Effect.of { s with res := xcorrRes a.thresh (detect a.w c) } [(s.arg 1, c)]

/-- XCORR (R148): the start waveform. -/
def effectXcorr (s : State) : Except Stop Effect := effectXcorrWith s.act.preS s

/-- XCORR.SEL (R148): the end waveform. -/
def effectXcorrSel (s : State) : Except Stop Effect := effectXcorrWith s.act.preE s

/-- SYNC_RESET (R157). -/
def effectSyncReset (s : State) : Except Stop Effect := .ok (Effect.of s.resetSync [])

/-- XCORR. -/
def execXcorr (s : State) : Host.Outcome State Fault Refusal := finish s (effectXcorr s)

/-- XCORR.SEL. -/
def execXcorrSel (s : State) : Host.Outcome State Fault Refusal := finish s (effectXcorrSel s)

/-- SYNC_PUSH. -/
def execSyncPush (s : State) : Host.Outcome State Fault Refusal := finish s (effectSyncPush s)

/-- SYNC_RESET. -/
def execSyncReset (s : State) : Host.Outcome State Fault Refusal := finish s (effectSyncReset s)

end Sys2Proof.Machine
end

