-- ==== Sys2Proof/Machine/Abort.lean ====
section
/-!
DEFINITION. Soft reset (spec/70_reset_and_hazards.md R262) and what it leaves of the command it aborts: each
DMEM word of an output region of that command may hold any value (spec/93_implementation_defined.md U3;
log 6, log 7).
-/

namespace Sys2Proof.Machine

/-- The DMEM regions (base, length) an effect writes. A command that ends in an error writes none (R67), and
`unread` stands for those of a command that would read a word without a value (log 7). -/
def effectRegions (r : Except Stop Effect) (unread : List (Nat × Nat)) : List (Nat × Nat) :=
  match r with
  | .ok e => e.writes.map fun w => (w.1, w.2.length)
  | .error (.error _ _) => []
  | .error (.fault _) => unread

/-- The capture words a SYNC_PUSH could write, whatever its samples: up to W from CAP on (R152), or the W words
after what is captured, unless they would pass the ceiling (R153, R155). A priming push has none (R150). -/
def captureRegions (s : State) : List (Nat × Nat) :=
  if s.sync.prevValid then
    match s.sync.mode with
    | .searchingStart => [(s.act.cap, s.act.w)]
    | .capturing =>
      if s.sync.capLen + s.act.w ≤ s.act.c then [(s.act.cap + s.sync.capLen, s.act.w)] else []
  else []

/-- The most payload bytes a BIT_UNPACK could write, whatever its symbols: declL is at most ARG5 and at most the
bytes recovered after the header (R218). -/
def unpackBound (s : State) : Nat := min (s.arg 5) (s.arg 1 * s.arg 3 / 8 - 8)

/-- The output regions (base, length) that a command's rule names. Most follow from the operands alone; those of
SYNC_PUSH ("as the START and CAPTURE steps say", R149) and of BIT_UNPACK (ceil(declL/4) words, R218) follow from
what DMEM holds (log 6, log 7). -/
def namedRegions (i : Instr) (s : State) : List (Nat × Nat) :=
  match i with
  | .nop | .cfgApply | .syncReset | .chEst => []
  | .layoutDump => [(s.arg 0, s.act.p), (s.arg 1, s.act.d)]
  | .fftFwd | .fftInv => [(s.arg 0, s.arg 2), (s.arg 1, s.arg 2)]
  | .cconv => [(s.arg 4, s.arg 6), (s.arg 5, s.arg 6)]
  | .xcorr | .xcorrSel => [(s.arg 1, s.act.w)]
  | .syncPush => effectRegions (effectSyncPush s) (captureRegions s)
  | .ofdmEnc => [(s.arg 4, s.arg 6 * s.act.r)]
  | .ofdmEncImagOut => [(s.arg 4, s.arg 6 * s.act.r), (s.arg 5, s.arg 6 * s.act.r)]
  | .ofdmDec | .ofdmDecImagIn =>
    [(s.arg 2, s.arg 6 * s.act.d), (s.arg 3, s.arg 6 * s.act.d),
      (s.arg 4, s.arg 6 * s.act.p), (s.arg 5, s.arg 6 * s.act.p)]
  | .realign => [(s.arg 3, s.arg 2 * s.act.r)]
  | .chEq => [(s.arg 2, s.arg 4), (s.arg 3, s.arg 4)]
  | .pskMod => [(s.arg 1, s.arg 3), (s.arg 2, s.arg 3)]
  | .pskDemod => [(s.arg 2, s.arg 3)]
  | .bitPack => [(s.arg 2, packedCount (s.arg 3) (s.arg 4) (s.arg 1))]
  | .bitUnpack => effectRegions (effectBitUnpack s) [(s.arg 2, ceilDiv (unpackBound s) 4)]

/-- The output regions of the running command (R262, U3); log 6 says which a command has that would not pass its
checks. A word that is no command has none. -/
def abortedRegions (s : State) : List (Nat × Nat) :=
  match decode s.latch.word with
  | .command i => namedRegions i s
  | .illegalOp _ => []
  | .reservedBits _ => []

/-- The free values of the `count` DMEM words from `index` on, clipped to the words that exist. -/
def scrambleRegion (abort dmemWords : Nat) (m : Memory) (index count : Nat) : Memory :=
  match count with
  | 0 => m
  | count + 1 =>
    if index < dmemWords then
      scrambleRegion abort dmemWords (writeWord m index (Config.abortedWord abort index)) (index + 1) count
    else m

/-- Every word of the regions at its free value. -/
def scramble (abort dmemWords : Nat) (m : Memory) (regions : List (Nat × Nat)) : Memory :=
  match regions with
  | [] => m
  | (index, count) :: rest =>
    scramble abort dmemWords (scrambleRegion abort dmemWords m index count) rest

/-- DMEM after a soft reset (R262 step 1): unchanged, but for the output regions of a running command. -/
def memoryAfterReset (s : State) : Memory :=
  if s.busy then scramble s.aborts s.hw.dmemWords s.mem (abortedRegions s) else s.mem

/-- Soft reset (R262 step 2): every register and all hidden state at its power-on value, DMEM kept. The
host's own accesses and the replies it has got are not CORE's to reset. -/
def State.softReset (s : State) : State :=
  { State.powerOn s.hw with
    mem := memoryAfterReset s
    pending := s.pending
    replies := s.replies
    aborts := if s.busy then s.aborts + 1 else s.aborts }

end Sys2Proof.Machine
end

