-- ==== Sys2Proof/Machine/Bus.lean ====
section
/-!
DEFINITION. The host's accesses: the address map and access rules of spec/20_memory.md R60, R65, R66, the
register map of spec/10_state.md R22-R45, and the DMEM window.
-/

namespace Sys2Proof.Machine

/-- The registers of R22. -/
inductive Reg where
  | id
  | hwparam0
  | hwparam1
  | ctrl
  | status
  | cmd
  | errCode
  | errInfo
  | irqStatus
  | irqEnable
  | arg (i : Fin 12)
  | res (j : Fin 4)
  | cfgSubc
  | cfgPilot
  | cfgSymlen
  | cfgCpf
  | cfgMod
  | cfgSync
  | cfgThresh
  | cfgDisp
  | cfgMaxsym
  | cfgPreStart
  | cfgPreEnd
  | cfgCapBase
  | actSubc
  | actPilot
  | actSymlen
  | actCplen
  | actRsymlen
  | actW
  | actCorrlen
  | actCaplimit
  | actMod
  | actNdata
  | corrRe
  | corrIm
  | syncEvent
  | syncLag
  | syncStat
  | syncPeak
  | syncHcnt
  | syncBound
  | syncCaplen
  | syncFramelen
  deriving DecidableEq, Repr

/-- The register at a byte offset (R22), `none` at an offset that R22 does not list (R23). -/
def regAt (offset : Nat) : Option Reg :=
  match offset with
  | 0x000 => some .id
  | 0x004 => some .hwparam0
  | 0x008 => some .hwparam1
  | 0x010 => some .ctrl
  | 0x014 => some .status
  | 0x018 => some .cmd
  | 0x01C => some .errCode
  | 0x020 => some .errInfo
  | 0x024 => some .irqStatus
  | 0x028 => some .irqEnable
  | 0x040 => some (.arg 0)
  | 0x044 => some (.arg 1)
  | 0x048 => some (.arg 2)
  | 0x04C => some (.arg 3)
  | 0x050 => some (.arg 4)
  | 0x054 => some (.arg 5)
  | 0x058 => some (.arg 6)
  | 0x05C => some (.arg 7)
  | 0x060 => some (.arg 8)
  | 0x064 => some (.arg 9)
  | 0x068 => some (.arg 10)
  | 0x06C => some (.arg 11)
  | 0x070 => some (.res 0)
  | 0x074 => some (.res 1)
  | 0x078 => some (.res 2)
  | 0x07C => some (.res 3)
  | 0x080 => some .cfgSubc
  | 0x084 => some .cfgPilot
  | 0x088 => some .cfgSymlen
  | 0x08C => some .cfgCpf
  | 0x090 => some .cfgMod
  | 0x094 => some .cfgSync
  | 0x098 => some .cfgThresh
  | 0x09C => some .cfgDisp
  | 0x0A0 => some .cfgMaxsym
  | 0x0A4 => some .cfgPreStart
  | 0x0A8 => some .cfgPreEnd
  | 0x0AC => some .cfgCapBase
  | 0x0C0 => some .actSubc
  | 0x0C4 => some .actPilot
  | 0x0C8 => some .actSymlen
  | 0x0CC => some .actCplen
  | 0x0D0 => some .actRsymlen
  | 0x0D4 => some .actW
  | 0x0D8 => some .actCorrlen
  | 0x0DC => some .actCaplimit
  | 0x0E0 => some .actMod
  | 0x0E4 => some .actNdata
  | 0x100 => some .corrRe
  | 0x104 => some .corrIm
  | 0x110 => some .syncEvent
  | 0x114 => some .syncLag
  | 0x118 => some .syncStat
  | 0x11C => some .syncPeak
  | 0x120 => some .syncHcnt
  | 0x124 => some .syncBound
  | 0x128 => some .syncCaplen
  | 0x12C => some .syncFramelen
  | _ => none

/-- A number as a register reads it (R10). -/
def wordOfNat (n : Nat) : Word := BitVec.ofNat 32 n

/-- CFG_SYNC as software reads it (R35): NE, NS, WSEL, reserved fields 0. -/
def Staging.syncWord (c : Staging) : Word :=
  (c.ne.setWidth 32 <<< 16) ||| (c.ns.setWidth 32 <<< 8) ||| bitAt c.wsel 0

/-- SYNC_HCNT as software reads it (R40): the end count above the start count. -/
def Sync.hcntWord (sy : Sync) : Word :=
  wordOfNat (sy.histE.length % 2 ^ 8 * 2 ^ 8 + sy.histS.length % 2 ^ 8)

/-- What a register reads as (R22-R45). A read changes nothing (R66). -/
def readReg (s : State) (r : Reg) : Word :=
  match r with
  | .id => 0x534D0100
  | .hwparam0 => wordOfNat s.hw.dmemWords
  | .hwparam1 => wordOfNat s.hw.fftMaxLen
  | .ctrl => 0
  | .status => s.statusWord
  | .cmd => s.cmd
  | .errCode => s.errCode.code.setWidth 32
  | .errInfo => s.errInfo
  | .irqStatus => s.irqStatus.setWidth 32
  | .irqEnable => s.irqEnable.setWidth 32
  | .arg i => s.args[i]
  | .res j => s.res[j]
  | .cfgSubc => s.cfg.subc.setWidth 32
  | .cfgPilot => s.cfg.pilot.setWidth 32
  | .cfgSymlen => s.cfg.symlen
  | .cfgCpf => s.cfg.cpf
  | .cfgMod => s.cfg.modOrder.setWidth 32
  | .cfgSync => s.cfg.syncWord
  | .cfgThresh => s.cfg.thresh
  | .cfgDisp => s.cfg.disp.setWidth 32
  | .cfgMaxsym => s.cfg.maxsym.setWidth 32
  | .cfgPreStart => s.cfg.preStart
  | .cfgPreEnd => s.cfg.preEnd
  | .cfgCapBase => s.cfg.capBase
  | .actSubc => wordOfNat s.act.k
  | .actPilot => wordOfNat s.act.p
  | .actSymlen => wordOfNat s.act.n
  | .actCplen => wordOfNat s.act.cp
  | .actRsymlen => wordOfNat s.act.r
  | .actW => wordOfNat s.act.w
  | .actCorrlen => wordOfNat s.act.l
  | .actCaplimit => wordOfNat s.act.c
  | .actMod => wordOfNat (s.act.m % 2 ^ 8)
  | .actNdata => wordOfNat s.act.d
  | .corrRe => s.corrRe
  | .corrIm => s.corrIm
  | .syncEvent => wordOfNat s.sync.event.code
  | .syncLag => s.sync.lag
  | .syncStat => s.sync.stat
  | .syncPeak => s.sync.peak
  | .syncHcnt => s.sync.hcntWord
  | .syncBound => s.sync.bound
  | .syncCaplen => wordOfNat s.sync.capLen
  | .syncFramelen => s.sync.frameLen

/-- A CMD write (R233): accepted by an idle engine, dropped with CMD_OVR by a busy one. -/
def State.presentCommand (s : State) (w : Word) : State :=
  if s.busy then { s with cmdOvr := true } else s.accept w

/-- A write of a staging register stores the fields and nothing else (R23, R30-R39). -/
def State.setStaging (s : State) (c : Staging) : State := { s with cfg := c }

/-- What a register write does (R22-R45). A write to a read-only register does nothing (R23). -/
def writeReg (s : State) (r : Reg) (v : Word) : State :=
  match r with
  | .ctrl => if v.getLsbD 0 then s.softReset else s
  | .status => if v.getLsbD 4 then { s with cmdOvr := false } else s
  | .cmd => s.presentCommand v
  | .irqStatus => { s with irqStatus := clearOnes s.irqStatus (v.setWidth 5) }
  | .irqEnable => { s with irqEnable := v.setWidth 5 }
  | .arg i => { s with args := s.args.set i v }
  | .cfgSubc => s.setStaging { s.cfg with subc := v.setWidth 16 }
  | .cfgPilot => s.setStaging { s.cfg with pilot := v.setWidth 16 }
  | .cfgSymlen => s.setStaging { s.cfg with symlen := v }
  | .cfgCpf => s.setStaging { s.cfg with cpf := v }
  | .cfgMod => s.setStaging { s.cfg with modOrder := v.setWidth 8 }
  | .cfgSync =>
    s.setStaging
      { s.cfg with wsel := v.getLsbD 0, ns := v.extractLsb' 8 8, ne := v.extractLsb' 16 8 }
  | .cfgThresh => s.setStaging { s.cfg with thresh := v }
  | .cfgDisp => s.setStaging { s.cfg with disp := v.setWidth 16 }
  | .cfgMaxsym => s.setStaging { s.cfg with maxsym := v.setWidth 16 }
  | .cfgPreStart => s.setStaging { s.cfg with preStart := v }
  | .cfgPreEnd => s.setStaging { s.cfg with preEnd := v }
  | .cfgCapBase => s.setStaging { s.cfg with capBase := v }
  | .corrRe => { s with corrRe := v }
  | .corrIm => { s with corrIm := v }
  | .id | .hwparam0 | .hwparam1 | .errCode | .errInfo | .res _ => s
  | .actSubc | .actPilot | .actSymlen | .actCplen | .actRsymlen => s
  | .actW | .actCorrlen | .actCaplimit | .actMod | .actNdata => s
  | .syncEvent | .syncLag | .syncStat | .syncPeak | .syncHcnt => s
  | .syncBound | .syncCaplen | .syncFramelen => s

/-- Where an access of the host lands (R60, R65). -/
inductive Target where
  /-- A register of R22. -/
  | register (r : Reg)
  /-- An offset of the register block that R22 does not list (R23). -/
  | reserved
  /-- DMEM word `index`. -/
  | dmem (index : Nat)
  /-- Another width, a misaligned offset or an unmapped offset: a bus error. -/
  | nowhere
  deriving DecidableEq, Repr

/-- The address map (R60) under the access rules of R65: 32 bits wide at a multiple of 4. -/
def targetOf (dmemWords width offset : Nat) : Target :=
  if width ≠ 32 ∨ offset % 4 ≠ 0 then .nowhere
  else if offset < 0x1000 then
    match regAt offset with
    | some r => .register r
    | none => .reserved
  else if dmemBase ≤ offset ∧ offset < dmemBase + 4 * dmemWords then .dmem ((offset - dmemBase) / 4)
  else .nowhere

/-- Where an access lands in this instance. -/
def Access.target (a : Access) (hw : HwParams) : Target :=
  match a with
  | .read width offset => targetOf hw.dmemWords width offset.toNat
  | .write width offset _ => targetOf hw.dmemWords width offset.toNat

/-- The access is one that a running command holds (R68): it lands in the DMEM window. -/
def Access.held (a : Access) (s : State) : Bool :=
  match a.target s.hw with
  | .dmem _ => s.busy
  | .register _ => false
  | .reserved => false
  | .nowhere => false

/-- The bus answers (R65, R66). -/
def State.reply (s : State) (r : Reply) : State := { s with replies := r :: s.replies }

/-- A host read (R65, R66): it changes nothing but what the host has got. -/
def hostRead (s : State) (t : Target) : Host.Outcome State Fault Refusal :=
  match t with
  | .register r => .next (s.reply (.data (readReg s r)))
  | .reserved => .next (s.reply (.data 0))
  | .dmem index =>
    match readWord s.mem index with
    | some w => .next (s.reply (.data w))
    | none => .fault (.unwrittenDmem index)
  | .nowhere => .next (s.reply .busError)

/-- A host write (R65, R66). -/
def hostWrite (s : State) (t : Target) (v : Word) : State :=
  match t with
  | .register r => (writeReg s r v).reply .written
  | .reserved => s.reply .written
  | .dmem index => { s with mem := writeWord s.mem index v }.reply .written
  | .nowhere => s.reply .busError

/-- A host access that is not held. -/
def performAccess (s : State) (a : Access) : Host.Outcome State Fault Refusal :=
  match a with
  | .read _ _ => hostRead s (a.target s.hw)
  | .write _ _ v => .next (hostWrite s (a.target s.hw) v)

end Sys2Proof.Machine
end

