-- ==== Sys2Proof/Machine/Channel.lean ====
section
/-!
DEFINITION. CH_EST and CH_EQ (spec/44_channel.md R190-R192). Neither needs a configuration.
-/

namespace Sys2Proof.Machine

/-- The ratio known/received of one pilot (R190), in its operation order. -/
def pilotRatio (known received : Cx) : Cx :=
  let nr := fadd (fmul known.re received.re) (fmul known.im received.im)
  let ni := fsub (fmul known.im received.re) (fmul known.re received.im)
  let den := fadd (fmul received.re received.re) (fmul received.im received.im)
  ⟨fdiv nr den, fdiv ni den⟩

/-- The component-wise sum of R190, from +0 + 0i, in increasing index. -/
def cxSum (xs : List Cx) : Cx :=
  xs.foldl (fun acc x => ⟨fadd acc.re x.re, fadd acc.im x.im⟩) cxZero

/-- The correction factor of R190: the mean of the ratios, and 1 + 0i of no pilots. -/
def estimate (known received : List Cx) : Cx :=
  if known.length = 0 then ⟨fOne, fZero⟩
  else
    let sum := cxSum (List.zipWith pilotRatio known received)
    ⟨fdiv sum.re (fOfNat known.length), fdiv sum.im (fOfNat known.length)⟩

/-- CH_EST (R190). -/
def effectChEst (s : State) : Except Stop Effect := do
  let n := s.arg 4
  checkRegion s 0 n
  checkRegion s 1 n
  checkRegion s 2 n
  checkRegion s 3 n
  let kre ← readArg s 0 n
  let kim ← readArg s 1 n
  let rre ← readArg s 2 n
  let rim ← readArg s 3 n
  let e := estimate (cxZip kre kim) (cxZip rre rim)
  return Effect.of { s with corrRe := e.re, corrIm := e.im } []

/-- One value times the correction factor (R191), in its operation order. -/
def equalize (corr x : Cx) : Cx :=
  ⟨fsub (fmul x.re corr.re) (fmul x.im corr.im), fadd (fmul x.re corr.im) (fmul x.im corr.re)⟩

/-- CH_EQ (R191), with CORR as it stood at acceptance (R45). -/
def effectChEq (s : State) : Except Stop Effect := do
  let n := s.arg 4
  checkRegion s 0 n
  checkRegion s 1 n
  checkRegion s 2 n
  checkRegion s 3 n
  let re ← readArg s 0 n
  let im ← readArg s 1 n
  let out := (cxZip re im).map (equalize ⟨s.latch.corrRe, s.latch.corrIm⟩)
  return Effect.of s [(s.arg 2, reals out), (s.arg 3, imags out)]

/-- CH_EST. -/
def execChEst (s : State) : Host.Outcome State Fault Refusal := finish s (effectChEst s)

/-- CH_EQ. -/
def execChEq (s : State) : Host.Outcome State Fault Refusal := finish s (effectChEq s)

end Sys2Proof.Machine
end

