-- ==== Sys2Proof/Machine/Control.lean ====
section
/-!
DEFINITION. NOP, CFG_APPLY and LAYOUT_DUMP (spec/40_config.md R100-R105).
-/

namespace Sys2Proof.Machine

/-- PILOTS[i] of R102, on exact integers: the pilot position rounded half up, less one. -/
def pilotIndex (k p i : Nat) : Nat := (2 * (i + 1) * k + (p + 1)) / (2 * (p + 1)) - 1

/-- PILOTS of R102. -/
def pilotIndices (k p : Nat) : List Nat := (List.range p).map (pilotIndex k p)

/-- DATA of R102: the used subcarriers that are no pilots, ascending. -/
def dataIndices (k p : Nat) : List Nat :=
  (List.range k).filter fun j => !(pilotIndices k p).contains j

/-- CP of R103 for a finite factor f ≥ 0: ceil(f·N), on the exact product. `unitsOf f` is f in units of
2^-149. -/
def cyclicPrefixLen (f : F32) (n : Nat) : Nat := ceilDiv (unitsOf f * n) (2 ^ 149)

/-- The only prime factors of m ≥ 1 are 2, 3, 5 and 7 (R104). Such an m has no exponent above log2 m, so it
divides 210^(log2 m), and a number that divides a power of 210 has no other prime factor (log 20). -/
def isSmooth7 (m : Nat) : Bool := 210 ^ Nat.log2 m % m == 0

/-- The first 7-smooth number from m on, looked for in `fuel` steps. -/
def smooth7From (fuel m : Nat) : Nat :=
  match fuel with
  | 0 => m
  | fuel + 1 => if isSmooth7 m then m else smooth7From fuel (m + 1)

/-- `smooth7(x)` of R104: the smallest 7-smooth number that is at least x. A power of two lies between x and
2x, so x steps find it. -/
def smooth7 (x : Nat) : Nat := smooth7From x x

/-- W of R104. -/
def windowLen (wsel : Bool) (n r : Nat) : Nat := if wsel then r else n

/-- C of R104. -/
def captureCeiling (maxsym r ne w : Nat) : Nat := maxsym * r + (ne + 1) * w

/-- The configuration CFG_APPLY derives from the staging registers (R101-R104). -/
def derive (c : Staging) : Active :=
  let k := c.subc.toNat
  let p := c.pilot.toNat
  let n := c.symlen.toNat
  let cp := cyclicPrefixLen c.cpf n
  let r := n + cp
  let w := windowLen c.wsel n r
  { k := k
    p := p
    n := n
    d := k - p
    cp := cp
    r := r
    w := w
    l := smooth7 (3 * w - 1)
    c := captureCeiling c.maxsym.toNat r c.ne.toNat w
    m := c.modOrder.toNat
    pilots := pilotIndices k p
    data := dataIndices k p
    ns := c.ns.toNat
    ne := c.ne.toNat
    thresh := c.thresh
    disp := c.disp.toNat
    maxsym := c.maxsym.toNat
    preS := c.preStart.toNat
    preE := c.preEnd.toNat
    cap := c.capBase.toNat }

/-- Legal values of CFG_CPF (R33): no NaN and 0 ≤ f ≤ 1, with -0 taken as 0. -/
def cpfLegal (f : F32) : Bool := !isNaN f && fge f fZero && fge fOne f

/-- Legal values of CFG_MOD (R34). -/
def modOrderLegal (m : Nat) : Bool := m == 2 || m == 4 || m == 8

/-- The checks of R101 on the staging values themselves, in their order. -/
def checkStaging (hw : HwParams) (c : Staging) : Except Stop Unit := do
  let n := c.symlen.toNat
  let k := c.subc.toNat
  check (decide (1 ≤ n) && decide (n ≤ hw.fftMaxLen)) .badConfig 0x088
  check (decide (1 ≤ k) && decide (k ≤ n)) .badConfig 0x080
  check (decide (c.pilot.toNat < k)) .badConfig 0x084
  check (cpfLegal c.cpf) .badConfig 0x08C
  check (modOrderLegal c.modOrder.toNat) .unsupportedModOrder c.modOrder.toNat
  check (c.ns != 0 && c.ne != 0) .badConfig 0x094
  check (!isNaN c.thresh) .badConfig 0x098

/-- The checks of R101 on what is derived, in their order. ERR_INFO carries the register's offset. -/
def checkDerived (hw : HwParams) (a : Active) : Except Stop Unit := do
  check (decide (a.l ≤ hw.fftMaxLen)) .lengthLimit a.l
  check (regionValid hw.dmemWords a.preS a.w) .addrRange 0x0A4
  check (regionValid hw.dmemWords a.preE a.w) .addrRange 0x0A8
  check (regionValid hw.dmemWords a.cap a.c) .addrRange 0x0AC

/-- NOP (R100). -/
def effectNop (s : State) : Except Stop Effect := .ok (Effect.of s [])

/-- CFG_APPLY (R101), from the staging registers as they stood at acceptance (R273). -/
def effectCfgApply (s : State) : Except Stop Effect := do
  checkStaging s.hw s.latch.staging
  let act := derive s.latch.staging
  checkDerived s.hw act
  return Effect.of { s.resetSync with act := act, cfgValid := true } []

/-- LAYOUT_DUMP (R105): the pilot region, then the data region. -/
def effectLayoutDump (s : State) : Except Stop Effect := do
  checkConfigured s
  checkRegion s 0 s.act.p
  checkRegion s 1 s.act.d
  return Effect.of s
    [(s.arg 0, s.act.pilots.map (BitVec.ofNat 32)), (s.arg 1, s.act.data.map (BitVec.ofNat 32))]

/-- NOP. -/
def execNop (s : State) : Host.Outcome State Fault Refusal := finish s (effectNop s)

/-- CFG_APPLY. -/
def execCfgApply (s : State) : Host.Outcome State Fault Refusal := finish s (effectCfgApply s)

/-- LAYOUT_DUMP. -/
def execLayoutDump (s : State) : Host.Outcome State Fault Refusal := finish s (effectLayoutDump s)

end Sys2Proof.Machine
end

