-- ==== Sys2Proof/Machine/Ofdm.lean ====
section
/-!
DEFINITION. OFDM_ENC, OFDM_DEC and REALIGN (spec/43_ofdm.md R170-R175).
-/

namespace Sys2Proof.Machine

/-- The spectrum with the listed bins set to the listed values (R171). -/
def placeAt (x : Array Cx) (bins : List Nat) (values : List Cx) : Array Cx :=
  (bins.zip values).foldl (fun y bv => y.setIfInBounds bv.1 bv.2) x

/-- The last `cp` of a list's samples put in front of it (R171). -/
def withCyclicPrefix (cp : Nat) (x : List Cx) : List Cx := x.drop (x.length - cp) ++ x

/-- The spectrum of R171: the data values on the DATA bins, the pilot values on the PILOTS bins, +0 + 0i on
every other bin (R170). -/
def symbolSpectrum (a : Active) (d p : List Cx) : Array Cx :=
  placeAt (placeAt (Array.replicate a.n cxZero) a.data d) a.pilots p

/-- `ENC_SYMBOL` of R171: the spectrum, its inverse transform, the cyclic prefix. -/
def encSymbol (a : Active) (d p : List Cx) : List Cx :=
  withCyclicPrefix a.cp (inv (symbolSpectrum a d p).toList)

/-- The values of a spectrum at the listed bins (R171). -/
def pickAt (x : Array Cx) (bins : List Nat) : List Cx := bins.map (Cx.at x)

/-- `DEC_SYMBOL` of R171: the prefix stripped, the forward transform, data and pilots read off. -/
def decSymbol (a : Active) (w : List Cx) : List Cx × List Cx :=
  let f := (fwd ((w.drop a.cp).take a.n)).toArray
  (pickAt f a.data, pickAt f a.pilots)

/-- The S symbols of `len` elements in a symbol-major array (R172, R173). -/
def symbolsOf (count len : Nat) (xs : List Cx) : List (List Cx) :=
  (List.range count).map fun i => (xs.drop (i * len)).take len

/-- The S time-domain symbols of R172, one after the other. -/
def encodeSymbols (a : Active) (count : Nat) (d p : List Cx) : List Cx :=
  (List.zipWith (encSymbol a) (symbolsOf count a.d d) (symbolsOf count a.p p)).flatten

/-- The data and pilot values of the S symbols of R173, symbol-major. -/
def decodeSymbols (a : Active) (count : Nat) (w : List Cx) : List Cx × List Cx :=
  let outs := (symbolsOf count a.r w).map (decSymbol a)
  ((outs.map Prod.fst).flatten, (outs.map Prod.snd).flatten)

/-- OFDM_ENC (R172); with `imagOut` the imaginary output region is checked and written too. -/
def effectOfdmEncWith (imagOut : Bool) (s : State) : Except Stop Effect := do
  let a := s.act
  let count := s.arg 6
  checkConfigured s
  checkRegion s 0 (count * a.d)
  checkRegion s 1 (count * a.d)
  checkRegion s 2 (count * a.p)
  checkRegion s 3 (count * a.p)
  checkRegion s 4 (count * a.r)
  if imagOut then checkRegion s 5 (count * a.r)
  let dre ← readArg s 0 (count * a.d)
  let dim ← readArg s 1 (count * a.d)
  let pre ← readArg s 2 (count * a.p)
  let pim ← readArg s 3 (count * a.p)
  let y := encodeSymbols a count (cxZip dre dim) (cxZip pre pim)
  return Effect.of s ((s.arg 4, reals y) :: if imagOut then [(s.arg 5, imags y)] else [])

/-- OFDM_ENC. -/
def effectOfdmEnc (s : State) : Except Stop Effect := effectOfdmEncWith false s

/-- OFDM_ENC.IMAG_OUT. -/
def effectOfdmEncImagOut (s : State) : Except Stop Effect := effectOfdmEncWith true s

/-- OFDM_DEC (R173); with `imagIn` the imaginary input is checked and read, otherwise it is +0. -/
def effectOfdmDecWith (imagIn : Bool) (s : State) : Except Stop Effect := do
  let a := s.act
  let count := s.arg 6
  checkConfigured s
  checkRegion s 0 (count * a.r)
  if imagIn then checkRegion s 1 (count * a.r)
  checkRegion s 2 (count * a.d)
  checkRegion s 3 (count * a.d)
  checkRegion s 4 (count * a.p)
  checkRegion s 5 (count * a.p)
  let re ← readArg s 0 (count * a.r)
  let im ← if imagIn then readArg s 1 (count * a.r) else .ok (List.replicate (count * a.r) fZero)
  let out := decodeSymbols a count (cxZip re im)
  return Effect.of s
    [(s.arg 2, reals out.1), (s.arg 3, imags out.1), (s.arg 4, reals out.2), (s.arg 5, imags out.2)]

/-- OFDM_DEC. -/
def effectOfdmDec (s : State) : Except Stop Effect := effectOfdmDecWith false s

/-- OFDM_DEC.IMAG_IN. -/
def effectOfdmDecImagIn (s : State) : Except Stop Effect := effectOfdmDecWith true s

/-- The re-centring of R174 to `total` words: zero padding or trimming, floor(difference/2) on the left. -/
def recentre (total : Nat) (raw : List Word) : List Word :=
  if raw.length = total then raw
  else if raw.length < total then
    let d := total - raw.length
    List.replicate (d / 2) 0 ++ raw ++ List.replicate (d - d / 2) 0
  else (raw.drop ((raw.length - total) / 2)).take total

/-- REALIGN (R174). -/
def effectRealign (s : State) : Except Stop Effect := do
  let total := s.arg 2 * s.act.r
  checkConfigured s
  checkRegion s 0 (s.arg 1)
  checkRegion s 3 total
  let raw ← readArg s 0 (s.arg 1)
  return Effect.of s [(s.arg 3, recentre total raw)]

/-- OFDM_ENC. -/
def execOfdmEnc (s : State) : Host.Outcome State Fault Refusal := finish s (effectOfdmEnc s)

/-- OFDM_ENC.IMAG_OUT. -/
def execOfdmEncImagOut (s : State) : Host.Outcome State Fault Refusal :=
  finish s (effectOfdmEncImagOut s)

/-- OFDM_DEC. -/
def execOfdmDec (s : State) : Host.Outcome State Fault Refusal := finish s (effectOfdmDec s)

/-- OFDM_DEC.IMAG_IN. -/
def execOfdmDecImagIn (s : State) : Host.Outcome State Fault Refusal :=
  finish s (effectOfdmDecImagIn s)

/-- REALIGN. -/
def execRealign (s : State) : Host.Outcome State Fault Refusal := finish s (effectRealign s)

end Sys2Proof.Machine
end

