-- ==== Sys2Proof/Machine/Psk.lean ====
section
/-!
DEFINITION. PSK_MOD and PSK_DEMOD (spec/45_psk.md R200-R206).
-/

namespace Sys2Proof.Machine

/-- h of R202. -/
def pskH : F32 := 0x3F3504F3

/-- c of R202. -/
def pskC : F32 := 0x3F6C835E

/-- s of R202. -/
def pskS : F32 := 0x3EC3EF15

/-- The points of R202 for order m, symbol 0 first. An order outside R34 has none. -/
def constellation (m : Nat) : List Cx :=
  match m with
  | 2 => [⟨fZero, fOne⟩, ⟨fZero, fneg fOne⟩]
  | 4 => [⟨pskH, pskH⟩, ⟨pskH, fneg pskH⟩, ⟨fneg pskH, pskH⟩, ⟨fneg pskH, fneg pskH⟩]
  | 8 =>
    [⟨pskC, pskS⟩, ⟨pskC, fneg pskS⟩, ⟨fneg pskC, pskS⟩, ⟨fneg pskC, fneg pskS⟩,
      ⟨pskS, pskC⟩, ⟨pskS, fneg pskC⟩, ⟨fneg pskS, pskC⟩, ⟨fneg pskS, fneg pskC⟩]
  | _ => []

/-- G_M of R201: the symbol at each position. -/
def grayTable (m : Nat) : List Nat :=
  match m with
  | 2 => [0, 1]
  | 4 => [0, 2, 3, 1]
  | 8 => [0, 4, 6, 2, 3, 7, 5, 1]
  | _ => []

/-- The point of a symbol (R202, R204). -/
def pointOf (m sym : Nat) : Cx := (constellation m).getD sym cxZero

/-- The quadrant of step 2 of R203, for x and y that are no NaN. -/
def quadrant (x y : F32) : Nat :=
  if feq y fZero then
    if fgt x fZero || x == fZero then 0 else 2
  else if fgt y fZero then
    if fgt x fZero then 0 else 1
  else if fgt fZero x then 2 else 3

/-- The half-quadrant of step 3 of R203, in quadrant q. -/
def halfQuadrant (q : Nat) (x y : F32) : Nat :=
  if feq y fZero then 0
  else if q % 2 = 0 then
    if fge (fabs y) (fabs x) then 1 else 0
  else if fge (fabs x) (fabs y) then 1 else 0

/-- The position of step 4 of R203. -/
def position (m : Nat) (x y : F32) : Nat :=
  let q := quadrant x y
  match m with
  | 2 => q / 2
  | 4 => q
  | _ => 2 * q + halfQuadrant q x y

/-- `DECIDE(M, x, y)` of R203. -/
def decideSymbol (m : Nat) (x y : F32) : Nat :=
  if isNaN x || isNaN y then 0 else (grayTable m).getD (position m x y) 0

/-- The symbols of PSK_MOD, read in element order: the first one that is not below M ends the command with
its index (check 4 of R204). -/
def readSymbols (mem : Memory) (m base : Nat) (i count : Nat) : Except Stop (List Word) :=
  match count with
  | 0 => .ok []
  | count + 1 =>
    match readWord mem (base + i) with
    | none => .error (.fault (.unwrittenDmem (base + i)))
    | some w =>
      if w.toNat < m then
        match readSymbols mem m base (i + 1) count with
        | .error e => .error e
        | .ok ws => .ok (w :: ws)
      else .error (.error .symbolRange (BitVec.ofNat 32 i))

/-- PSK_MOD (R204). -/
def effectPskMod (s : State) : Except Stop Effect := do
  let count := s.arg 3
  checkConfigured s
  checkRegion s 0 count
  checkRegion s 1 count
  checkRegion s 2 count
  let syms ← readSymbols s.mem s.act.m (s.arg 0) 0 count
  let points := syms.map fun w => pointOf s.act.m w.toNat
  return Effect.of s [(s.arg 1, reals points), (s.arg 2, imags points)]

/-- PSK_DEMOD (R205). -/
def effectPskDemod (s : State) : Except Stop Effect := do
  let count := s.arg 3
  checkConfigured s
  checkRegion s 0 count
  checkRegion s 1 count
  checkRegion s 2 count
  let xs ← readArg s 0 count
  let ys ← readArg s 1 count
  let syms := List.zipWith (fun x y => BitVec.ofNat 32 (decideSymbol s.act.m x y)) xs ys
  return Effect.of s [(s.arg 2, syms)]

/-- PSK_MOD. -/
def execPskMod (s : State) : Host.Outcome State Fault Refusal := finish s (effectPskMod s)

/-- PSK_DEMOD. -/
def execPskDemod (s : State) : Host.Outcome State Fault Refusal := finish s (effectPskDemod s)

end Sys2Proof.Machine
end

