-- ==== Sys2Proof/Machine/Transform.lean ====
section
/-!
DEFINITION. FFT_FWD, FFT_INV and CCONV (spec/41_fft.md R129-R131). None needs a configuration.
-/

namespace Sys2Proof.Machine

/-- FFT_FWD and FFT_INV (R129, R130): the same checks in the same order, and the transform in place; the re
region is written first, then the im region. -/
def effectTransform (transform : List Cx → List Cx) (s : State) : Except Stop Effect := do
  let n := s.arg 2
  check (decide (s.arg 2 = s.arg 3)) .lengthMismatch 3
  check (decide (n ≤ s.hw.fftMaxLen)) .lengthLimit n
  checkRegion s 0 n
  checkRegion s 1 n
  let re ← readArg s 0 n
  let im ← readArg s 1 n
  let x := transform (cxZip re im)
  return Effect.of s [(s.arg 0, reals x), (s.arg 1, imags x)]

/-- FFT_FWD (R129). -/
def effectFftFwd (s : State) : Except Stop Effect := effectTransform fwd s

/-- FFT_INV (R130). -/
def effectFftInv (s : State) : Except Stop Effect := effectTransform inv s

/-- CCONV (R131): the six regions are checked in increasing ARG index; out.re is written first. -/
def effectCconv (s : State) : Except Stop Effect := do
  let n := s.arg 6
  check (decide (s.arg 7 = n)) .lengthMismatch 7
  check (decide (s.arg 8 = n)) .lengthMismatch 8
  check (decide (n ≤ s.hw.fftMaxLen)) .lengthLimit n
  checkRegion s 0 n
  checkRegion s 1 n
  checkRegion s 2 n
  checkRegion s 3 n
  checkRegion s 4 n
  checkRegion s 5 n
  let xre ← readArg s 0 n
  let xim ← readArg s 1 n
  let yre ← readArg s 2 n
  let yim ← readArg s 3 n
  let out := conv (cxZip xre xim) (cxZip yre yim)
  return Effect.of s [(s.arg 4, reals out), (s.arg 5, imags out)]

/-- FFT_FWD. -/
def execFftFwd (s : State) : Host.Outcome State Fault Refusal := finish s (effectFftFwd s)

/-- FFT_INV. -/
def execFftInv (s : State) : Host.Outcome State Fault Refusal := finish s (effectFftInv s)

/-- CCONV. -/
def execCconv (s : State) : Host.Outcome State Fault Refusal := finish s (effectCconv s)

end Sys2Proof.Machine
end

