-- ==== Sys2Proof/Machine/Dispatch.lean ====
section
/-!
DEFINITION. From a command to its meaning: one arm per constructor of `Instr`.
-/

namespace Sys2Proof.Machine

def exec (i : Instr) (s : State) : Host.Outcome State Fault Refusal :=
  match i with
  | .nop => Sys2Proof.Machine.execNop s
  | .cfgApply => Sys2Proof.Machine.execCfgApply s
  | .layoutDump => Sys2Proof.Machine.execLayoutDump s
  | .fftFwd => Sys2Proof.Machine.execFftFwd s
  | .fftInv => Sys2Proof.Machine.execFftInv s
  | .cconv => Sys2Proof.Machine.execCconv s
  | .xcorr => Sys2Proof.Machine.execXcorr s
  | .xcorrSel => Sys2Proof.Machine.execXcorrSel s
  | .syncPush => Sys2Proof.Machine.execSyncPush s
  | .syncReset => Sys2Proof.Machine.execSyncReset s
  | .ofdmEnc => Sys2Proof.Machine.execOfdmEnc s
  | .ofdmEncImagOut => Sys2Proof.Machine.execOfdmEncImagOut s
  | .ofdmDec => Sys2Proof.Machine.execOfdmDec s
  | .ofdmDecImagIn => Sys2Proof.Machine.execOfdmDecImagIn s
  | .realign => Sys2Proof.Machine.execRealign s
  | .chEst => Sys2Proof.Machine.execChEst s
  | .chEq => Sys2Proof.Machine.execChEq s
  | .pskMod => Sys2Proof.Machine.execPskMod s
  | .pskDemod => Sys2Proof.Machine.execPskDemod s
  | .bitPack => Sys2Proof.Machine.execBitPack s
  | .bitUnpack => Sys2Proof.Machine.execBitUnpack s

end Sys2Proof.Machine
end

