-- ==== Sys2Proof/Machine/Engine.lean ====
section
/-!
DEFINITION. The command engine (spec/60_exceptions.md R233, R234; spec/30_encoding.md R82, R86) and the
machine's turns (spec/20_memory.md R68, R69; log 1).
-/

namespace Sys2Proof.Machine

/-- The running command from its decoding to its completion (R82, R86, R233, R234). -/
def runCommand (s : State) : Host.Outcome State Fault Refusal :=
  match decode s.latch.word with
  | .command i => exec i s
  | .illegalOp op => .next (s.raiseError .illegalOp (op.setWidth 32))
  | .reservedBits w => .next (s.raiseError .reservedBits w)

/-- The engine's turn: the running command completes; an idle engine does nothing (R249). -/
def engineTurn (s : State) : Host.Outcome State Fault Refusal :=
  if s.busy then runCommand s else .next s

/-- The engine's turn after the host's access in the same step (R44, R242; log 12). -/
def thenEngine (o : Host.Outcome State Fault Refusal) : Host.Outcome State Fault Refusal :=
  match o with
  | .next s => engineTurn s
  | .fault f => .fault f
  | .refused r => .refused r

/-- One turn. A held access (R68) waits for the running command to complete and comes next. -/
def turn (s : State) (t : Turn) (rest : List Turn) : Host.Outcome State Fault Refusal :=
  match t with
  | .engine => engineTurn { s with pending := rest }
  | .host a =>
    if a.held s then engineTurn s else performAccess { s with pending := rest } a
  | .both a =>
    if a.held s then engineTurn { s with pending := .host a :: rest }
    else if s.busy then thenEngine (performAccess { s with pending := rest } a)
    else performAccess { s with pending := rest } a

/-- One step of the machine: the next turn, or, with none to come, the engine's (R234, R276: every accepted
command completes). -/
def stepOnce (s : State) : Host.Outcome State Fault Refusal :=
  match s.pending with
  | [] => engineTurn s
  | t :: rest => turn s t rest

end Sys2Proof.Machine
end

