-- ==== Sys2Proof/Machine/Step.lean ====
section
/-!
DEFINITION. The step of the machine, and a command placed where the next step runs it.
-/

namespace Sys2Proof.Machine

/-- One step. -/
def step (s : State) : Host.Outcome State Fault Refusal := stepOnce s

/-- The command word `w`, as a CMD write of it leaves the engine when it is accepted (R233), with the
engine's turn next, so that the next step decodes and runs it. CORE fetches nothing (R20): its next
instruction is the latched command word. Bits above `nbits`, and above the word's 32, are no part of a
command (R80). -/
def State.withFetchWord (s : State) (nbits w : Nat) : State :=
  { s.accept (BitVec.ofNat 32 (w % 2 ^ nbits)) with pending := .engine :: s.pending }

end Sys2Proof.Machine
end

