-- ==== Sys2Proof/Safety.lean ====
section
/-!
DEFINITION. What the claims are stated in terms of: the consistency of a state that the rules keep. `Inv` is
what every step keeps (spec/10_state.md R30-R46, spec/20_memory.md R61, R62, spec/42_sync.md R146, R152-R156).
-/

namespace Sys2Proof.Machine

/-- Nothing is listed outside the DMEM window (R60, R61). -/
def MemInWindow (dmemWords : Nat) (m : Memory) : Prop :=
  ∀ a, (readByte m a).isSome → dmemBase ≤ a ∧ a < dmemBase + 4 * dmemWords

/-- A DMEM word was written whole or not at all: every access is of a whole word (R65, R67). -/
def MemWhole (m : Memory) : Prop :=
  ∀ index i, i < 4 →
    ((readByte m (byteAddr index i)).isSome ↔ (readByte m (byteAddr index 0)).isSome)

/-- Memory is canonical, inside the window, and made of whole words. -/
structure MemOk (dmemWords : Nat) (m : Memory) : Prop where
  wf : Memory.wf m = true
  inWindow : MemInWindow dmemWords m
  whole : MemWhole m

/-- An active configuration that CFG_APPLY could have set (R30-R39, R41, R101-R104). -/
structure ActiveOk (hw : HwParams) (a : Active) : Prop where
  nPos : 1 ≤ a.n
  nMax : a.n ≤ hw.fftMaxLen
  kPos : 1 ≤ a.k
  kMax : a.k ≤ a.n
  pMax : a.p < a.k
  dVal : a.d = a.k - a.p
  cpMax : a.cp ≤ a.n
  rVal : a.r = a.n + a.cp
  wVal : a.w = a.n ∨ a.w = a.r
  lVal : a.l = smooth7 (3 * a.w - 1)
  lMax : a.l ≤ hw.fftMaxLen
  cVal : a.c = a.maxsym * a.r + (a.ne + 1) * a.w
  order : modOrderLegal a.m = true
  pilots : a.pilots = pilotIndices a.k a.p
  data : a.data = dataIndices a.k a.p
  dataCount : a.data.length = a.d
  nsPos : 1 ≤ a.ns
  nsMax : a.ns ≤ 255
  nePos : 1 ≤ a.ne
  neMax : a.ne ≤ 255
  thresh : isNaN a.thresh = false
  preS : regionValid hw.dmemWords a.preS a.w = true
  preE : regionValid hw.dmemWords a.preE a.w = true
  cap : regionValid hw.dmemWords a.cap a.c = true

/-- A synchronizer state that pushes under this configuration could have reached (R46, R140, R145, R152-R156).
The capture never passes its ceiling, and a lag is an offset inside the window. -/
structure SyncOk (a : Active) (sy : Sync) : Prop where
  prevLen : sy.prevValid = true → sy.prev.length = a.w
  unprimed : sy.prevValid = false → sy = Sync.reset
  histSLen : sy.histS.length ≤ a.ns
  histELen : sy.histE.length ≤ a.ne
  histSLag : ∀ x ∈ sy.histS, x < a.w
  histELag : ∀ x ∈ sy.histE, x < a.w
  capLen : sy.capLen ≤ a.c
  searching : sy.mode = .searchingStart → sy.capLen = 0 ∧ sy.histE = []
  capturing : sy.mode = .capturing → sy.histS = []
  frameLen : sy.frameLen.toNat ≤ a.c

/-- The consistency of a state. -/
structure Inv (s : State) : Prop where
  hw : s.hw.legal = true
  mem : MemOk s.hw.dmemWords s.mem
  configured : s.cfgValid = true → ActiveOk s.hw s.act ∧ SyncOk s.act s.sync
  unconfigured : s.cfgValid = false → s.act = Active.reset ∧ s.sync = Sync.reset
  running : s.busy = true → s.cmd = s.latch.word

/-! ### What the claims say of a command's end -/

/-- A successful completion (R234) with no event: code and info 0, DONE, BUSY = 0. -/
def State.done (s : State) : State :=
  { s with errCode := .ok, errInfo := 0, irqStatus := s.irqStatus ||| 0b00001, busy := false }

/-- A completion in error (R232, R234): code and info, DONE and ERR, BUSY = 0. -/
def State.failed (s : State) (code : ErrCode) (info : Nat) : State :=
  { s with
    errCode := code
    errInfo := BitVec.ofNat 32 info
    irqStatus := s.irqStatus ||| 0b00011
    busy := false }

/-- The region check of R62 for the region of `len` words at ARG[i]. -/
abbrev State.regionOk (s : State) (i : Fin 12) (len : Nat) : Prop :=
  len = 0 ∨ s.arg i + len ≤ s.hw.dmemWords

/-- DMEM holds the words `ws` from index `base` on (R61). -/
abbrev Holds (m : Memory) (base : Nat) (ws : List Word) : Prop :=
  ∀ j < ws.length, readWord m (base + j) = ws[j]?

/-- The bits of a register that are not reserved (R22-R45). -/
def Reg.fields (r : Reg) : Word :=
  match r with
  | .ctrl => 0x00000001
  | .status | .irqStatus | .irqEnable => 0x0000001F
  | .errCode | .cfgMod | .actMod => 0x000000FF
  | .cfgSubc | .cfgPilot | .cfgDisp | .cfgMaxsym | .syncHcnt => 0x0000FFFF
  | .cfgSync => 0x00FFFF01
  | .syncEvent => 0x0000000F
  | .id | .hwparam0 | .hwparam1 | .cmd | .errInfo | .arg _ | .res _ => 0xFFFFFFFF
  | .cfgSymlen | .cfgCpf | .cfgThresh | .cfgPreStart | .cfgPreEnd | .cfgCapBase => 0xFFFFFFFF
  | .actSubc | .actPilot | .actSymlen | .actCplen | .actRsymlen => 0xFFFFFFFF
  | .actW | .actCorrlen | .actCaplimit | .actNdata => 0xFFFFFFFF
  | .corrRe | .corrIm | .syncLag | .syncStat | .syncPeak => 0xFFFFFFFF
  | .syncBound | .syncCaplen | .syncFramelen => 0xFFFFFFFF

/-- The registers whose access is RO in R22. STATUS is listed there with its own rule (R42). -/
def Reg.readOnly (r : Reg) : Bool :=
  match r with
  | .id | .hwparam0 | .hwparam1 | .errCode | .errInfo | .res _ => true
  | .actSubc | .actPilot | .actSymlen | .actCplen | .actRsymlen => true
  | .actW | .actCorrlen | .actCaplimit | .actMod | .actNdata => true
  | .syncEvent | .syncLag | .syncStat | .syncPeak | .syncHcnt => true
  | .syncBound | .syncCaplen | .syncFramelen => true
  | .ctrl | .status | .cmd | .irqStatus | .irqEnable | .arg _ => false
  | .cfgSubc | .cfgPilot | .cfgSymlen | .cfgCpf | .cfgMod | .cfgSync => false
  | .cfgThresh | .cfgDisp | .cfgMaxsym | .cfgPreStart | .cfgPreEnd | .cfgCapBase => false
  | .corrRe | .corrIm => false

/-- The registers whose access is RW in R22: plain storage. -/
def Reg.readWrite (r : Reg) : Bool :=
  match r with
  | .irqEnable | .arg _ | .corrRe | .corrIm => true
  | .cfgSubc | .cfgPilot | .cfgSymlen | .cfgCpf | .cfgMod | .cfgSync => true
  | .cfgThresh | .cfgDisp | .cfgMaxsym | .cfgPreStart | .cfgPreEnd | .cfgCapBase => true
  | .id | .hwparam0 | .hwparam1 | .errCode | .errInfo | .res _ => false
  | .actSubc | .actPilot | .actSymlen | .actCplen | .actRsymlen => false
  | .actW | .actCorrlen | .actCaplimit | .actMod | .actNdata => false
  | .syncEvent | .syncLag | .syncStat | .syncPeak | .syncHcnt => false
  | .syncBound | .syncCaplen | .syncFramelen => false
  | .ctrl | .status | .cmd | .irqStatus => false

/-- The map of R22: byte offset, register. -/
def registerMap : List (Nat × Reg) :=
  [(0x000, .id), (0x004, .hwparam0), (0x008, .hwparam1), (0x010, .ctrl), (0x014, .status), (0x018, .cmd),
    (0x01C, .errCode), (0x020, .errInfo), (0x024, .irqStatus), (0x028, .irqEnable)] ++
  [(0x040, .arg 0), (0x044, .arg 1), (0x048, .arg 2), (0x04C, .arg 3), (0x050, .arg 4), (0x054, .arg 5),
    (0x058, .arg 6), (0x05C, .arg 7), (0x060, .arg 8), (0x064, .arg 9), (0x068, .arg 10), (0x06C, .arg 11)] ++
  [(0x070, .res 0), (0x074, .res 1), (0x078, .res 2), (0x07C, .res 3)] ++
  [(0x080, .cfgSubc), (0x084, .cfgPilot), (0x088, .cfgSymlen), (0x08C, .cfgCpf), (0x090, .cfgMod),
    (0x094, .cfgSync), (0x098, .cfgThresh), (0x09C, .cfgDisp), (0x0A0, .cfgMaxsym), (0x0A4, .cfgPreStart),
    (0x0A8, .cfgPreEnd), (0x0AC, .cfgCapBase)] ++
  [(0x0C0, .actSubc), (0x0C4, .actPilot), (0x0C8, .actSymlen), (0x0CC, .actCplen), (0x0D0, .actRsymlen),
    (0x0D4, .actW), (0x0D8, .actCorrlen), (0x0DC, .actCaplimit), (0x0E0, .actMod), (0x0E4, .actNdata)] ++
  [(0x100, .corrRe), (0x104, .corrIm)] ++
  [(0x110, .syncEvent), (0x114, .syncLag), (0x118, .syncStat), (0x11C, .syncPeak), (0x120, .syncHcnt),
    (0x124, .syncBound), (0x128, .syncCaplen), (0x12C, .syncFramelen)]

/-- The map of R22 with its reset values: byte offset, value. HWPARAM0 and HWPARAM1 are the instance's. -/
def resetValues (hw : HwParams) : List (Nat × Word) :=
  [(0x000, 0x534D0100), (0x004, wordOfNat hw.dmemWords), (0x008, wordOfNat hw.fftMaxLen), (0x010, 0),
    (0x014, 0), (0x018, 0), (0x01C, 0), (0x020, 0), (0x024, 0), (0x028, 0)] ++
  [(0x040, 0), (0x044, 0), (0x048, 0), (0x04C, 0), (0x050, 0), (0x054, 0), (0x058, 0), (0x05C, 0),
    (0x060, 0), (0x064, 0), (0x068, 0), (0x06C, 0), (0x070, 0), (0x074, 0), (0x078, 0), (0x07C, 0)] ++
  [(0x080, 0x0000000A), (0x084, 0x00000002), (0x088, 0x00000800), (0x08C, 0x3DCCCCCD),
    (0x090, 0x00000004), (0x094, 0x00030301), (0x098, 0x40800000), (0x09C, 0x0000000A),
    (0x0A0, 0x00000010), (0x0A4, 0x00000000), (0x0A8, 0x00001000), (0x0AC, 0x00002000)] ++
  [(0x0C0, 0), (0x0C4, 0), (0x0C8, 0), (0x0CC, 0), (0x0D0, 0), (0x0D4, 0), (0x0D8, 0), (0x0DC, 0),
    (0x0E0, 0), (0x0E4, 0), (0x100, 0x3F800000), (0x104, 0)] ++
  [(0x110, 0), (0x114, 0), (0x118, 0), (0x11C, 0), (0x120, 0), (0x124, 0), (0x128, 0), (0x12C, 0)]

/-! ### Binary32 values as exact numbers -/

/-- The pattern is no NaN and no infinity. -/
abbrev IsFinite (a : F32) : Prop := expField a ≠ 255

/-- The exact value of a finite binary32 pattern (R12). -/
def ratOf (a : F32) : ℚ := (if signBit a then -1 else 1) * (unitsOf a : ℚ) / 2 ^ 149

/-- `r` is the exact number `x` rounded to nearest, ties to even (R12): a finite value no further from x than
any other, with an even last bit where another is equally near; or, where |x| is at least half a step above
the largest finite value, the infinity of x's sign. -/
def RoundedTo (x : ℚ) (r : F32) : Prop :=
  (IsFinite r ∧ |x| < (2 ^ 25 - 1) * 2 ^ 103 ∧
    ∀ z, IsFinite z →
      |ratOf r - x| ≤ |ratOf z - x| ∧
        (|ratOf r - x| = |ratOf z - x| → ratOf z ≠ ratOf r → r.toNat % 2 = 0)) ∨
  ((2 ^ 25 - 1) * 2 ^ 103 ≤ |x| ∧ r = infOf (decide (x < 0)))

/-! ### The checks of the commands -/

/-- The first check that fails, with the error it raises (R232, R235). -/
def firstFailure (checks : List (Bool × ErrCode × Nat)) : Option (ErrCode × Nat) :=
  match checks with
  | [] => none
  | (holds, code, info) :: rest => if holds then firstFailure rest else some (code, info)

/-- The check of the region of `len` words at ARG[i] (R62, R231). -/
def State.regionCheck (s : State) (i : Fin 12) (len : Nat) : Bool × ErrCode × Nat :=
  (decide (s.regionOk i len), .addrRange, i.val)

/-- The check for a configuration (R83, R231). -/
def State.configuredCheck (s : State) : Bool × ErrCode × Nat := (s.cfgValid, .notConfigured, 0)

/-- The region of `len` words at a word index lies inside DMEM (R62). -/
abbrev InDmem (hw : HwParams) (base len : Nat) : Prop := len = 0 ∨ base + len ≤ hw.dmemWords

/-- The checks of CFG_APPLY on the staging values, in the order of R101. -/
def cfgApplyChecks (hw : HwParams) (c : Staging) : List (Bool × ErrCode × Nat) :=
  let n := c.symlen.toNat
  let k := c.subc.toNat
  let a := derive c
  [(decide (1 ≤ n ∧ n ≤ hw.fftMaxLen), .badConfig, 0x088),
    (decide (1 ≤ k ∧ k ≤ n), .badConfig, 0x080),
    (decide (c.pilot.toNat < k), .badConfig, 0x084),
    (decide (isNaN c.cpf = false ∧ 0 ≤ ratOf c.cpf ∧ ratOf c.cpf ≤ 1), .badConfig, 0x08C),
    (decide (c.modOrder.toNat ∈ [2, 4, 8]), .unsupportedModOrder, c.modOrder.toNat),
    (decide (c.ns ≠ 0 ∧ c.ne ≠ 0), .badConfig, 0x094),
    (decide (isNaN c.thresh = false), .badConfig, 0x098),
    (decide (a.l ≤ hw.fftMaxLen), .lengthLimit, a.l),
    (decide (InDmem hw c.preStart.toNat a.w), .addrRange, 0x0A4),
    (decide (InDmem hw c.preEnd.toNat a.w), .addrRange, 0x0A8),
    (decide (InDmem hw c.capBase.toNat a.c), .addrRange, 0x0AC)]

/-- The checks of every command on its operands and its configuration, in the order of its rule (R100-R218).
The checks of PSK_MOD and BIT_UNPACK on what DMEM holds come after them and are no part of the list. -/
def commandChecks (i : Instr) (s : State) : List (Bool × ErrCode × Nat) :=
  match i with
  | .nop | .syncReset => []
  | .cfgApply => cfgApplyChecks s.hw s.latch.staging
  | .layoutDump => [s.configuredCheck, s.regionCheck 0 s.act.p, s.regionCheck 1 s.act.d]
  | .fftFwd | .fftInv =>
    [(decide (s.arg 2 = s.arg 3), .lengthMismatch, 3),
      (decide (s.arg 2 ≤ s.hw.fftMaxLen), .lengthLimit, s.arg 2),
      s.regionCheck 0 (s.arg 2), s.regionCheck 1 (s.arg 2)]
  | .cconv =>
    [(decide (s.arg 7 = s.arg 6), .lengthMismatch, 7), (decide (s.arg 8 = s.arg 6), .lengthMismatch, 8),
      (decide (s.arg 6 ≤ s.hw.fftMaxLen), .lengthLimit, s.arg 6),
      s.regionCheck 0 (s.arg 6), s.regionCheck 1 (s.arg 6), s.regionCheck 2 (s.arg 6),
      s.regionCheck 3 (s.arg 6), s.regionCheck 4 (s.arg 6), s.regionCheck 5 (s.arg 6)]
  | .xcorr | .xcorrSel => [s.configuredCheck, s.regionCheck 0 (2 * s.act.w), s.regionCheck 1 s.act.w]
  | .syncPush => [s.configuredCheck, s.regionCheck 0 s.act.w]
  | .ofdmEnc =>
    [s.configuredCheck, s.regionCheck 0 (s.arg 6 * s.act.d), s.regionCheck 1 (s.arg 6 * s.act.d),
      s.regionCheck 2 (s.arg 6 * s.act.p), s.regionCheck 3 (s.arg 6 * s.act.p),
      s.regionCheck 4 (s.arg 6 * s.act.r)]
  | .ofdmEncImagOut =>
    [s.configuredCheck, s.regionCheck 0 (s.arg 6 * s.act.d), s.regionCheck 1 (s.arg 6 * s.act.d),
      s.regionCheck 2 (s.arg 6 * s.act.p), s.regionCheck 3 (s.arg 6 * s.act.p),
      s.regionCheck 4 (s.arg 6 * s.act.r), s.regionCheck 5 (s.arg 6 * s.act.r)]
  | .ofdmDec =>
    [s.configuredCheck, s.regionCheck 0 (s.arg 6 * s.act.r),
      s.regionCheck 2 (s.arg 6 * s.act.d), s.regionCheck 3 (s.arg 6 * s.act.d),
      s.regionCheck 4 (s.arg 6 * s.act.p), s.regionCheck 5 (s.arg 6 * s.act.p)]
  | .ofdmDecImagIn =>
    [s.configuredCheck, s.regionCheck 0 (s.arg 6 * s.act.r), s.regionCheck 1 (s.arg 6 * s.act.r),
      s.regionCheck 2 (s.arg 6 * s.act.d), s.regionCheck 3 (s.arg 6 * s.act.d),
      s.regionCheck 4 (s.arg 6 * s.act.p), s.regionCheck 5 (s.arg 6 * s.act.p)]
  | .realign => [s.configuredCheck, s.regionCheck 0 (s.arg 1), s.regionCheck 3 (s.arg 2 * s.act.r)]
  | .chEst | .chEq =>
    [s.regionCheck 0 (s.arg 4), s.regionCheck 1 (s.arg 4), s.regionCheck 2 (s.arg 4),
      s.regionCheck 3 (s.arg 4)]
  | .pskMod | .pskDemod =>
    [s.configuredCheck, s.regionCheck 0 (s.arg 3), s.regionCheck 1 (s.arg 3), s.regionCheck 2 (s.arg 3)]
  | .bitPack =>
    let count := packedCount (s.arg 3) (s.arg 4) (s.arg 1)
    [(decide (1 ≤ s.arg 3 ∧ s.arg 3 ≤ 16), .badParam, 3),
      (decide (1 ≤ s.arg 4 ∧ s.arg 4 ≤ 65535), .badParam, 4),
      s.regionCheck 0 ((s.arg 1 + 3) / 4), s.regionCheck 2 count,
      (decide (count ≤ s.arg 5), .capacity, count)]
  | .bitUnpack =>
    [(decide (1 ≤ s.arg 3 ∧ s.arg 3 ≤ 16), .badParam, 3),
      (decide (1 ≤ s.arg 4 ∧ s.arg 4 ≤ 65535), .badParam, 4),
      s.regionCheck 0 (s.arg 1)]

/-- A next state changed by `f`; a stop stays what it is. -/
def mapNext (f : State → State) (o : Host.Outcome State Fault Refusal) : Host.Outcome State Fault Refusal :=
  match o with
  | .next s => .next (f s)
  | .fault x => .fault x
  | .refused x => .refused x

/-- The DMEM words (base, length) a command that went from `s` to `t` stores to. Each base is the operand, or
the capture address, that the command's rule names (R85, R152, R153, R218). -/
def storedRegions (i : Instr) (s t : State) : List (Nat × Nat) :=
  match i with
  | .nop | .cfgApply | .syncReset | .chEst => []
  | .layoutDump => [(s.arg 0, s.act.p), (s.arg 1, s.act.d)]
  | .fftFwd | .fftInv => [(s.arg 0, s.arg 2), (s.arg 1, s.arg 2)]
  | .cconv => [(s.arg 4, s.arg 6), (s.arg 5, s.arg 6)]
  | .xcorr | .xcorrSel => [(s.arg 1, s.act.w)]
  | .syncPush =>
    match t.sync.event, s.sync.mode with
    | .start, _ => [(s.act.cap, s.act.w - t.sync.bound.toNat)]
    | .noDetect, .capturing => [(s.act.cap + s.sync.capLen, s.act.w)]
    | .candidate, .capturing => [(s.act.cap + s.sync.capLen, s.act.w)]
    | _, _ => []
  | .ofdmEnc => [(s.arg 4, s.arg 6 * s.act.r)]
  | .ofdmEncImagOut => [(s.arg 4, s.arg 6 * s.act.r), (s.arg 5, s.arg 6 * s.act.r)]
  | .ofdmDec | .ofdmDecImagIn =>
    [(s.arg 2, s.arg 6 * s.act.d), (s.arg 3, s.arg 6 * s.act.d),
      (s.arg 4, s.arg 6 * s.act.p), (s.arg 5, s.arg 6 * s.act.p)]
  | .realign => [(s.arg 3, s.arg 2 * s.act.r)]
  | .chEq => [(s.arg 2, s.arg 4), (s.arg 3, s.arg 4)]
  | .pskMod => [(s.arg 1, s.arg 3), (s.arg 2, s.arg 3)]
  | .pskDemod => [(s.arg 2, s.arg 3)]
  | .bitPack => [(s.arg 2, t.res[0].toNat)]
  | .bitUnpack => [(s.arg 2, ceilDiv t.res[0].toNat 4)]

end Sys2Proof.Machine
end

