-- ==== Sys2Proof/Certificates/Slice0/Obligations.lean ====
section
/-!
DEFINITION. What the provers are asked to prove of the model, from the numbered rules of spec/.
-/

open Sys2Proof Sys2Proof.Machine

/-! ### Command words (spec/30_encoding.md) -/

/-- R88: the command word of every pseudo-instruction form decodes to that command. -/
def Obligations.CommandWordsDecode : Prop :=
  decode 0x00000000 = .command .nop ∧
  decode 0x00000001 = .command .cfgApply ∧
  decode 0x00000002 = .command .layoutDump ∧
  decode 0x00000010 = .command .fftFwd ∧
  decode 0x00000011 = .command .fftInv ∧
  decode 0x00000012 = .command .cconv ∧
  decode 0x00000020 = .command .xcorr ∧
  decode 0x00000120 = .command .xcorrSel ∧
  decode 0x00000021 = .command .syncPush ∧
  decode 0x00000022 = .command .syncReset ∧
  decode 0x00000030 = .command .ofdmEnc ∧
  decode 0x00000130 = .command .ofdmEncImagOut ∧
  decode 0x00000031 = .command .ofdmDec ∧
  decode 0x00000131 = .command .ofdmDecImagIn ∧
  decode 0x00000032 = .command .realign ∧
  decode 0x00000040 = .command .chEst ∧
  decode 0x00000041 = .command .chEq ∧
  decode 0x00000050 = .command .pskMod ∧
  decode 0x00000051 = .command .pskDemod ∧
  decode 0x00000060 = .command .bitPack ∧
  decode 0x00000061 = .command .bitUnpack

/-- R83, R84, R88: a word decodes to a command exactly when it is that command's word, so every command
decodes from its word and no two words mean the same command. -/
def Obligations.DecodeExactlyTheEncodings : Prop :=
  ∀ (w : Word) (i : Instr), decode w = .command i ↔ w = encode i

/-- R82, R86: the three classes of words, from the numbers of their fields, and what a running word of each
class does: ILLEGAL_OP with info OP, RESERVED_BITS with info the word, or the command. -/
def Obligations.WordClasses : Prop :=
  ∀ (s : State),
    let w := s.latch.word
    let op := w.toNat % 256
    let flags := w.toNat / 256 % 256
    let reserved := w.toNat / 65536
    let known := op ∈ [0x00, 0x01, 0x02, 0x10, 0x11, 0x12, 0x20, 0x21, 0x22, 0x30, 0x31, 0x32,
      0x40, 0x41, 0x50, 0x51, 0x60, 0x61]
    let clear := reserved = 0 ∧ (flags = 0 ∨ flags = 1 ∧ op ∈ [0x20, 0x30, 0x31])
    (¬ known → runCommand s = .next (s.failed .illegalOp op)) ∧
    (known → ¬ clear → runCommand s = .next (s.failed .reservedBits w.toNat)) ∧
    (known → clear → ∃ i, encode i = w ∧ runCommand s = exec i s)

/-! ### The engine and the host (spec/60_exceptions.md, spec/20_memory.md) -/

/-- R82, R86, R233, R234, R69: how a step runs the latched word, and what surrounds it. While BUSY = 1, a step with
no turn to come, an engine turn and a held access run that word, legal or not (`runCommand`, see WordClasses); where
it decodes to i, they are `exec i`. Otherwise a host access is performed, and an idle engine does nothing. The order of host access and engine is
the model's own data, log 1 and log 12. -/
def Obligations.StepRunsDecoded : Prop :=
  ∀ (s : State) (rest : List Turn) (a : Access) (i : Instr),
    (s.busy = true → s.pending = [] → step s = runCommand s) ∧
    (s.busy = true → s.pending = .engine :: rest → step s = runCommand { s with pending := rest }) ∧
    (s.busy = true → s.pending = .host a :: rest → a.held s = true → step s = runCommand s) ∧
    (s.busy = true → s.pending = .both a :: rest → a.held s = true →
      step s = runCommand { s with pending := .host a :: rest }) ∧
    thenEngine (.next s) = (if s.busy = true then runCommand s else .next s) ∧
    (s.busy = true → decode s.latch.word = .command i → s.pending = [] → step s = exec i s) ∧
    (s.busy = true → decode s.latch.word = .command i → s.pending = .engine :: rest →
      step s = exec i { s with pending := rest }) ∧
    (s.busy = true → decode s.latch.word = .command i → s.pending = .host a :: rest → a.held s = true →
      step s = exec i s) ∧
    (s.busy = true → decode s.latch.word = .command i → s.pending = .both a :: rest → a.held s = true →
      step s = exec i { s with pending := .host a :: rest }) ∧
    (s.busy = true → s.pending = .both a :: rest → a.held s = false →
      step s = thenEngine (performAccess { s with pending := rest } a)) ∧
    (s.pending = .host a :: rest → a.held s = false →
      step s = performAccess { s with pending := rest } a) ∧
    (s.busy = false → s.pending = .both a :: rest →
      step s = performAccess { s with pending := rest } a) ∧
    (s.busy = false → s.pending = [] → step s = .next s) ∧
    (s.busy = false → s.pending = .engine :: rest → step s = .next { s with pending := rest }) ∧
    step (s.withFetchWord 32 (encode i).toNat) = exec i (s.accept (encode i))

/-- R233: a CMD write of w. While BUSY = 0 it is accepted: w, ARG0-ARG11 and the registers a command reads are
latched, CMD reads back w, BUSY = 1. While BUSY = 1 it is dropped: CMD_OVR = 1 and nothing else. That CORR and the
staging registers are latched beside ARG0-ARG11 is the model's reading of R69, log 3. -/
def Obligations.Acceptance : Prop :=
  ∀ (s : State) (w : Word) (rest : List Turn), s.pending = .host (.write 32 0x018 w) :: rest →
    (s.busy = false →
      step s = .next { s with
        cmd := w
        busy := true
        latch :=
          { word := w, args := s.args, staging := s.cfg, corrRe := s.corrRe, corrIm := s.corrIm }
        pending := rest
        replies := .written :: s.replies }) ∧
    (s.busy = true →
      step s = .next { s with cmdOvr := true, pending := rest, replies := .written :: s.replies })

/-- R68: while BUSY = 1 an access to the DMEM window waits: the running command completes first, the access is
still the next turn, and it is performed by the next step. A register access is performed at once. The list of
turns is the model's, log 1 and log 13. -/
def Obligations.HeldAccess : Prop :=
  ∀ (s : State) (a : Access) (rest : List Turn), s.pending = .host a :: rest → s.busy = true →
    (∀ index, a.target s.hw = .dmem index →
      step s = runCommand s ∧
      ∀ t, runCommand s = .next t →
        t.busy = false ∧ t.pending = .host a :: rest ∧
          step t = performAccess { t with pending := rest } a) ∧
    (∀ r, a.target s.hw = .register r → step s = performAccess { s with pending := rest } a)

/-- R234: what every completion leaves in the completion registers: code and info 0 and DONE on success, with
START, FRAME or TOOLONG of a SYNC_PUSH; DONE and ERR on error; BUSY = 0 in both. -/
def Obligations.CompletionRegisters : Prop :=
  ∀ (i : Instr) (s t : State), exec i s = .next t →
    t.busy = false ∧
    (t.errCode = .ok → t.errInfo = 0) ∧
    (t.errCode ≠ .ok → t.irqStatus = s.irqStatus ||| 0b00011) ∧
    (t.errCode = .ok → i ≠ .syncPush → t.irqStatus = s.irqStatus ||| 0b00001) ∧
    (t.errCode = .ok → i = .syncPush →
      t.irqStatus = s.irqStatus ||| 0b00001 |||
        (if t.sync.event = .start then 0b00100
         else if t.sync.event = .frame then 0b01000
         else if t.sync.event = .tooLong then 0b10000
         else 0))

/-- R236: after an error of any running word, legal or not, everything but ERR_CODE, ERR_INFO, IRQ_STATUS and
BUSY is as it was before the command completed: DMEM, RES, CORR, ACT, the synchronizer and all else. -/
def Obligations.PreciseErrors : Prop :=
  ∀ (s t : State), runCommand s = .next t → t.errCode ≠ .ok →
    t = { s with
      errCode := t.errCode
      errInfo := t.errInfo
      irqStatus := s.irqStatus ||| 0b00011
      busy := false }

/-- R234, R75: every command completes, unless it reads a DMEM word that nothing has written (log 5). With all of
DMEM written, every command completes in every consistent state. -/
def Obligations.EveryCommandCompletes : Prop :=
  (∀ (i : Instr) (s : State),
    (∃ t, exec i s = .next t) ∨
      ∃ index, exec i s = .fault (.unwrittenDmem index) ∧ readWord s.mem index = none) ∧
  (∀ (i : Instr) (s : State), Inv s → (∀ index < s.hw.dmemWords, readWord s.mem index ≠ none) →
    ∃ t, exec i s = .next t)

/-- R28, R45, R41, R158, R100-R218 "Writes": the registers a command leaves unchanged. Only CH_EST writes CORR,
only CFG_APPLY writes ACT and CFG_VALID, only XCORR, SYNC_PUSH, BIT_PACK and BIT_UNPACK write RES, only SYNC_PUSH,
SYNC_RESET and CFG_APPLY write the synchronizer, and no command writes any other register. -/
def Obligations.CommandFrame : Prop :=
  ∀ (i : Instr) (s t : State), exec i s = .next t →
    t.hw = s.hw ∧ t.args = s.args ∧ t.cmd = s.cmd ∧ t.cmdOvr = s.cmdOvr ∧ t.irqEnable = s.irqEnable ∧
    t.cfg = s.cfg ∧ t.latch = s.latch ∧ t.pending = s.pending ∧ t.replies = s.replies ∧
    t.aborts = s.aborts ∧
    (i ≠ .chEst → t.corrRe = s.corrRe ∧ t.corrIm = s.corrIm) ∧
    (i ≠ .cfgApply → t.act = s.act ∧ t.cfgValid = s.cfgValid) ∧
    (i ∉ [Instr.xcorr, .xcorrSel, .syncPush, .bitPack, .bitUnpack] → t.res = s.res) ∧
    (i ∈ [Instr.bitPack, .bitUnpack] → ∀ j : Fin 4, j ≠ 0 → t.res[j] = s.res[j]) ∧
    (i ∉ [Instr.syncPush, .syncReset, .cfgApply] → t.sync = s.sync)

/-- R67, R247 "no write outside the named regions": in a consistent state, a command leaves every byte of DMEM
outside the regions it stores to as it was. NOP, CFG_APPLY, SYNC_RESET and CH_EST store nothing. -/
def Obligations.MemoryFrame : Prop :=
  ∀ (i : Instr) (s t : State), Inv s → exec i s = .next t →
    ∀ a : Nat,
      (∀ r ∈ storedRegions i s t, ¬ (0x00100000 + 4 * r.1 ≤ a ∧ a < 0x00100000 + 4 * (r.1 + r.2))) →
      readByte t.mem a = readByte s.mem a

/-- R158: the synchronizer state is written only by SYNC_PUSH, SYNC_RESET, CFG_APPLY and reset, and no other
command reads it: with another synchronizer state the command does the same and leaves that state alone. -/
def Obligations.SyncOwnership : Prop :=
  (∀ (i : Instr) (s : State) (sy : Sync), i ∉ [Instr.syncPush, .syncReset, .cfgApply] →
    exec i { s with sync := sy } = mapNext (fun t => { t with sync := sy }) (exec i s)) ∧
  (∀ (s t : State), runCommand s = .next t →
    (∀ i ∈ [Instr.syncPush, .syncReset, .cfgApply], decode s.latch.word ≠ .command i) → t.sync = s.sync) ∧
  (∀ (s : State) (r : Reg) (v : Word), r ≠ .ctrl → (writeReg s r v).sync = s.sync)

/-- R27, R45, R233, R273, R274: register writes while a command runs do not change what it does. Every write but
one of CTRL leaves all but ARG, CFG_*, CORR, IRQ_ENABLE, CMD_OVR and IRQ_STATUS as it was, a dropped CMD write and
the W1C writes among them. With other values there the command does the same and they stay written; but it adds its
bits to IRQ_STATUS, and a CH_EST that succeeds overwrites CORR. What is latched: log 3. -/
def Obligations.LatchedOperands : Prop :=
  ∀ (i : Instr) (s : State) (args : Vector Word 12) (cfg : Staging) (re im : F32) (enable status : BitVec 5)
    (ovr : Bool),
    (s.busy = true → ∀ (r : Reg) (v : Word), r ≠ .ctrl →
      ∃ args' cfg' re' im' enable' status' ovr', writeReg s r v =
        { s with
          args := args', cfg := cfg', corrRe := re', corrIm := im'
          irqEnable := enable', irqStatus := status', cmdOvr := ovr' }) ∧
    exec i { s with args := args, cfg := cfg, irqEnable := enable, cmdOvr := ovr } =
      mapNext (fun t => { t with args := args, cfg := cfg, irqEnable := enable, cmdOvr := ovr }) (exec i s) ∧
    exec i { s with irqStatus := status } =
      mapNext (fun t => { t with irqStatus := status ||| t.irqStatus }) (exec i { s with irqStatus := 0 }) ∧
    (i ≠ .chEst →
      exec i { s with corrRe := re, corrIm := im } =
        mapNext (fun t => { t with corrRe := re, corrIm := im }) (exec i s)) ∧
    exec .chEst { s with corrRe := re, corrIm := im } =
      mapNext (fun t => if t.errCode = .ok then t else { t with corrRe := re, corrIm := im })
        (exec .chEst s)

/-- R60, R61, R63, R65: a host write of DMEM word `index` at byte offset 0x0010_0000 + 4·index sets that word and
no other, with bits 8b+7..8b at byte offset + b, and a read there gets it back. R66, R69, R75: a host read of a DMEM
word that holds w, whoever wrote it, answers w and changes nothing else; of one that holds no value it faults
(log 5). -/
def Obligations.HostDmemAccess : Prop :=
  ∀ (s : State) (index : Nat) (v : Word), s.hw.legal = true → index < s.hw.dmemWords →
    let offset : Word := BitVec.ofNat 32 (0x00100000 + 4 * index)
    (∃ t, performAccess s (.write 32 offset v) = .next t ∧
      t = { s with mem := t.mem, replies := .written :: s.replies } ∧
      readWord t.mem index = some v ∧
      (∀ j, j ≠ index → readWord t.mem j = readWord s.mem j) ∧
      (∀ b < 4, readByte t.mem (0x00100000 + 4 * index + b) = some (v.extractLsb' (8 * b) 8)) ∧
      performAccess t (.read 32 offset) = .next { t with replies := .data v :: t.replies }) ∧
    (∀ w, readWord s.mem index = some w →
      performAccess s (.read 32 offset) = .next { s with replies := .data w :: s.replies }) ∧
    (readWord s.mem index = none → performAccess s (.read 32 offset) = .fault (.unwrittenDmem index))

/-- R65: an access of another width, at a misaligned offset or at an unmapped offset gets a bus error and changes
nothing, busy or idle; a 32-bit write at an aligned and mapped offset is answered as written, and such a read, where
it completes, with a value. That a busy CORE answers a bad access at once is the model's choice, log 13. -/
def Obligations.BusErrors : Prop :=
  ∀ (s : State) (width : Nat) (offset v : Word) (rest : List Turn),
    let mapped := offset.toNat < 0x1000 ∨
      (0x00100000 ≤ offset.toNat ∧ offset.toNat < 0x00100000 + 4 * s.hw.dmemWords)
    let good := width = 32 ∧ offset.toNat % 4 = 0 ∧ mapped
    (¬ good → s.pending = .host (.read width offset) :: rest →
      step s = .next { s with pending := rest, replies := .busError :: s.replies }) ∧
    (¬ good → s.pending = .host (.write width offset v) :: rest →
      step s = .next { s with pending := rest, replies := .busError :: s.replies }) ∧
    (good →
      (∃ t, performAccess s (.write width offset v) = .next t ∧ t.replies = .written :: s.replies) ∧
      (∀ t, performAccess s (.read width offset) = .next t → ∃ d, t.replies = .data d :: s.replies))

/-! ### Registers (spec/10_state.md) -/

/-- R23: an aligned offset of the register block that R22 does not list reads 0 and ignores writes; a write to an
RO register has no effect; a reserved field reads 0 and what is written to it is discarded. -/
def Obligations.ReservedSpace : Prop :=
  ∀ (s : State),
    (∀ (offset v : Word), offset.toNat < 0x1000 → offset.toNat % 4 = 0 →
      offset.toNat ∉ (resetValues s.hw).map Prod.fst →
      performAccess s (.read 32 offset) = .next { s with replies := .data 0 :: s.replies } ∧
      performAccess s (.write 32 offset v) = .next { s with replies := .written :: s.replies }) ∧
    (∀ (r : Reg) (v : Word), r.readOnly = true → writeReg s r v = s) ∧
    (∀ r : Reg, readReg s r &&& ~~~ r.fields = 0) ∧
    (∀ (r : Reg) (v : Word), writeReg s r v = writeReg s r (v &&& r.fields))

/-- R22, R27, R30-R39: a write of an RW register stores its fields, which read back, and changes nothing else:
no other register reads differently, and no state but ARG, CFG_*, CORR and IRQ_ENABLE is written. And at every
byte offset of the map of R22 a host read answers with what the register of that offset reads as, and a host write
does what a write of that register does. -/
def Obligations.RegisterReadBack : Prop :=
  ∀ (s : State) (v : Word),
    (∀ r : Reg, r.readWrite = true →
      readReg (writeReg s r v) r = v &&& r.fields ∧
      (∀ r', r' ≠ r → readReg (writeReg s r v) r' = readReg s r') ∧
      (∃ args cfg re im enable, writeReg s r v =
        { s with args := args, cfg := cfg, corrRe := re, corrIm := im, irqEnable := enable })) ∧
    (∀ p ∈ registerMap,
      let offset : Word := BitVec.ofNat 32 p.1
      performAccess s (.read 32 offset) =
        .next { s with replies := .data (readReg s p.2) :: s.replies } ∧
      performAccess s (.write 32 offset v) =
        .next { writeReg s p.2 v with replies := .written :: (writeReg s p.2 v).replies })

/-- R42, R66 and the reads of R24-R45: the bits of STATUS, what a write to it does, that a read changes nothing but
what the host has got, and what every other register reads as: the constants ID and CTRL, the numbers of R231 and
R40 in ERR_CODE and SYNC_EVENT, the bits of IRQ_STATUS and IRQ_ENABLE, CMD, ARG, RES, CORR, the fields of CFG_*, the
SYNC_* values; and, in a consistent state, HWPARAM0 and HWPARAM1, the fields of ACT, SYNC_CAPLEN and the two counts
of SYNC_HCNT as the numbers they are (log 16: views). -/
def Obligations.StatusAndReads : Prop :=
  ∀ (s : State) (v : Word),
    ((readReg s .status).getLsbD 0 = s.busy ∧
      (readReg s .status).getLsbD 1 = s.cfgValid ∧
      ((readReg s .status).getLsbD 2 = true ↔ s.sync.mode = .capturing) ∧
      (readReg s .status).getLsbD 3 = s.sync.prevValid ∧
      (readReg s .status).getLsbD 4 = s.cmdOvr ∧
      ∀ b, 5 ≤ b → (readReg s .status).getLsbD b = false) ∧
    (v.getLsbD 4 = true → writeReg s .status v = { s with cmdOvr := false }) ∧
    (v.getLsbD 4 = false → writeReg s .status v = s) ∧
    (∀ (width : Nat) (offset : Word) (t : State), performAccess s (.read width offset) = .next t →
      ∃ r, t = { s with replies := r :: s.replies }) ∧
    (readReg s .id = 0x534D0100 ∧ readReg s .ctrl = 0 ∧ readReg s .cmd = s.cmd ∧
      (∀ i : Fin 12, readReg s (.arg i) = s.args[i]) ∧ (∀ j : Fin 4, readReg s (.res j) = s.res[j])) ∧
    ((readReg s .errCode).toNat =
        (match s.errCode with
        | .ok => 0x00
        | .illegalOp => 0x01
        | .reservedBits => 0x02
        | .notConfigured => 0x03
        | .addrRange => 0x04
        | .lengthMismatch => 0x05
        | .lengthLimit => 0x06
        | .unsupportedModOrder => 0x07
        | .badConfig => 0x08
        | .symbolRange => 0x09
        | .frameDecodeMismatch => 0x0A
        | .capacity => 0x0B
        | .badParam => 0x0C) ∧
      readReg s .errInfo = s.errInfo ∧
      ∀ b, (readReg s .irqStatus).getLsbD b = s.irqStatus.getLsbD b ∧
        (readReg s .irqEnable).getLsbD b = s.irqEnable.getLsbD b) ∧
    ((readReg s .cfgSubc).toNat = s.cfg.subc.toNat ∧ (readReg s .cfgPilot).toNat = s.cfg.pilot.toNat ∧
      readReg s .cfgSymlen = s.cfg.symlen ∧ readReg s .cfgCpf = s.cfg.cpf ∧
      (readReg s .cfgMod).toNat = s.cfg.modOrder.toNat ∧
      (readReg s .cfgSync).toNat =
        (if s.cfg.wsel then 1 else 0) + 2 ^ 8 * s.cfg.ns.toNat + 2 ^ 16 * s.cfg.ne.toNat ∧
      readReg s .cfgThresh = s.cfg.thresh ∧ (readReg s .cfgDisp).toNat = s.cfg.disp.toNat ∧
      (readReg s .cfgMaxsym).toNat = s.cfg.maxsym.toNat ∧ readReg s .cfgPreStart = s.cfg.preStart ∧
      readReg s .cfgPreEnd = s.cfg.preEnd ∧ readReg s .cfgCapBase = s.cfg.capBase ∧
      readReg s .corrRe = s.corrRe ∧ readReg s .corrIm = s.corrIm) ∧
    ((readReg s .syncEvent).toNat =
        (match s.sync.event with
        | .none => 0
        | .primed => 1
        | .noDetect => 2
        | .candidate => 3
        | .start => 4
        | .frame => 5
        | .tooLong => 6) ∧
      readReg s .syncLag = s.sync.lag ∧ readReg s .syncStat = s.sync.stat ∧
      readReg s .syncPeak = s.sync.peak ∧ readReg s .syncBound = s.sync.bound ∧
      readReg s .syncFramelen = s.sync.frameLen) ∧
    (Inv s →
      (readReg s .hwparam0).toNat = s.hw.dmemWords ∧ (readReg s .hwparam1).toNat = s.hw.fftMaxLen ∧
      (readReg s .actSubc).toNat = s.act.k ∧ (readReg s .actPilot).toNat = s.act.p ∧
      (readReg s .actSymlen).toNat = s.act.n ∧ (readReg s .actCplen).toNat = s.act.cp ∧
      (readReg s .actRsymlen).toNat = s.act.r ∧ (readReg s .actW).toNat = s.act.w ∧
      (readReg s .actCorrlen).toNat = s.act.l ∧ (readReg s .actCaplimit).toNat = s.act.c ∧
      (readReg s .actMod).toNat = s.act.m ∧ (readReg s .actNdata).toNat = s.act.d ∧
      (readReg s .syncCaplen).toNat = s.sync.capLen ∧
      (readReg s .syncHcnt).toNat = s.sync.histS.length + 2 ^ 8 * s.sync.histE.length)

/-- R240: irq is the OR of the enabled IRQ_STATUS bits, and a write of IRQ_ENABLE changes the mask and no
IRQ_STATUS bit. -/
def Obligations.InterruptOutput : Prop :=
  ∀ (s : State) (v : Word),
    (s.irq = true ↔ ∃ b < 5, s.irqStatus.getLsbD b = true ∧ s.irqEnable.getLsbD b = true) ∧
    writeReg s .irqEnable v = { s with irqEnable := v.setWidth 5 }

/-- R44, R239, R242: a write of 1 to an IRQ_STATUS bit clears it, a write of 0 leaves it; and where the write and
a completion fall in the same step, every bit the completion sets ends set, DONE among them. -/
def Obligations.SetWins : Prop :=
  ∀ (s u : State) (v : Word) (rest : List Turn),
    writeReg s .irqStatus v = { s with irqStatus := s.irqStatus &&& ~~~ (v.setWidth 5) } ∧
    (s.busy = true → s.pending = .both (.write 32 0x024 v) :: rest →
      runCommand { s with pending := rest, replies := .written :: s.replies, irqStatus := 0 } = .next u →
      u.irqStatus.getLsbD 0 = true ∧
      step s = .next { u with irqStatus := s.irqStatus &&& ~~~ (v.setWidth 5) ||| u.irqStatus })

/-! ### Reset (spec/70_reset_and_hazards.md) -/

/-- R22, R260: after power-on every register of R22 reads its reset value, the interrupt output is low, the active
configuration is empty, the synchronizer searches with no window, the engine is idle. The model's reset is that of
an instance with the default parameters of R7; DMEM lists nothing (log 5). -/
def Obligations.ResetState : Prop :=
  ∀ hw : HwParams,
    (∀ p ∈ resetValues hw, (regAt p.1).map (readReg (State.powerOn hw)) = some p.2) ∧
    (State.powerOn hw).irq = false ∧
    (State.powerOn hw).busy = false ∧
    (State.powerOn hw).cfgValid = false ∧
    (State.powerOn hw).act.pilots = [] ∧
    (State.powerOn hw).act.data = [] ∧
    (State.powerOn hw).sync.mode = .searchingStart ∧
    (State.powerOn hw).sync.prevValid = false ∧
    (State.powerOn hw).sync.histS = [] ∧
    (State.powerOn hw).sync.histE = [] ∧
    (State.powerOn hw).sync.capLen = 0 ∧
    (State.powerOn hw).mem = [] ∧
    State.reset = State.powerOn ⟨65536, 16384⟩

/-- R262: a CTRL write with bit 0 = 0 does nothing; with bit 0 = 1 every register and all hidden state are at
their power-on values and DMEM is kept, but for the output regions of a running command: each of their words that
exists may hold any value (U3) and takes the free value of log 6 and log 7, of which nothing is known. Most commands' regions are those the operands name. Those of
SYNC_PUSH and BIT_UNPACK are, in a consistent state, what it would have stored to, and none where it would have ended
in an error; whatever it would have read, no word outside the capture buffer, or outside the words of the most bytes
BIT_UNPACK could give, changes. An illegal word has no output region (log 6). -/
def Obligations.SoftReset : Prop :=
  ∀ (s : State) (v : Word),
    (v.getLsbD 0 = false → writeReg s .ctrl v = s) ∧
    (v.getLsbD 0 = true → ∃ m n,
      writeReg s .ctrl v =
        { State.powerOn s.hw with mem := m, pending := s.pending, replies := s.replies, aborts := n } ∧
      (s.busy = false → m = s.mem) ∧
      (∀ j, readWord m j = readWord s.mem j ∨ readWord m j = some (Config.abortedWord s.aborts j)) ∧
      (∀ i, s.busy = true → decode s.latch.word = .command i →
        n = s.aborts + 1 ∧
        ∀ r ∈ namedRegions i s, ∀ j, r.1 ≤ j → j < r.1 + r.2 → j < s.hw.dmemWords →
          readWord m j = some (Config.abortedWord s.aborts j)) ∧
      (∀ i, decode s.latch.word = .command i → ∀ j,
        (∀ r ∈ namedRegions i s, ¬ (r.1 ≤ j ∧ j < r.1 + r.2)) → readWord m j = readWord s.mem j) ∧
      (∀ i t, i ∉ [Instr.syncPush, .bitPack, .bitUnpack] → decode s.latch.word = .command i → ∀ j,
        (∀ r ∈ storedRegions i s t, ¬ (r.1 ≤ j ∧ j < r.1 + r.2)) → readWord m j = readWord s.mem j) ∧
      (decode s.latch.word = .command .bitPack → ∀ j,
        ¬ (s.arg 2 ≤ j ∧ j < s.arg 2 + packedCount (s.arg 3) (s.arg 4) (s.arg 1)) →
        readWord m j = readWord s.mem j) ∧
      (∀ i t, i ∈ [Instr.syncPush, .bitUnpack] → decode s.latch.word = .command i → Inv s →
        exec i s = .next t → ∀ j,
        (t.errCode = .ok → ∀ r ∈ storedRegions i s t, ¬ (r.1 ≤ j ∧ j < r.1 + r.2)) →
        readWord m j = readWord s.mem j) ∧
      (decode s.latch.word = .command .syncPush → Inv s → ∀ j,
        ¬ (s.act.cap ≤ j ∧ j < s.act.cap + s.act.c) → readWord m j = readWord s.mem j) ∧
      (decode s.latch.word = .command .bitUnpack → ∀ j,
        ¬ (s.arg 2 ≤ j ∧ j < s.arg 2 + (min (s.arg 5) (s.arg 1 * s.arg 3 / 8 - 8) + 3) / 4) →
        readWord m j = readWord s.mem j) ∧
      ((∀ i, decode s.latch.word ≠ .command i) → m = s.mem))

/-! ### DMEM writes (spec/20_memory.md) -/

/-- R67: output regions are written in the stated order, so that each word ends with what the last region that
covers it holds for it, and a word that no region covers is unchanged. -/
def Obligations.RegionsWritten : Prop :=
  ∀ (m : Memory) (writes : List (Nat × List Word)) (j : Nat),
    readWord (applyWrites m writes) j =
      match (writes.filter fun r => decide (r.1 ≤ j ∧ j < r.1 + r.2.length)).getLast? with
      | none => readWord m j
      | some r => r.2[j - r.1]?

/-! ### Control and configuration commands (spec/40_config.md) -/

/-- R100, R157: NOP and SYNC_RESET need no configuration and read no operand. NOP only completes, and with
IRQ_ENABLE = 1 raises the interrupt output; SYNC_RESET puts the synchronizer into its initial state. -/
def Obligations.CommandsWithoutOperands : Prop :=
  decode 0x00000000 = .command .nop ∧ decode 0x00000022 = .command .syncReset ∧
  ∀ s : State,
    exec .nop s = .next s.done ∧
    (s.irqEnable = 1 → s.done.irq = true) ∧
    exec .syncReset s = .next
      { s with
        sync :=
          { mode := .searchingStart
            prevValid := false
            prev := []
            histS := []
            histE := []
            capLen := 0
            event := .none
            lag := 0
            stat := 0
            peak := 0
            bound := 0
            frameLen := 0 } }.done

/-- R101: CFG_APPLY ends in the error of its first failing check, or sets ACT to the values of R101-R104 from
the staging registers as latched at acceptance, CFG_VALID = 1, and the synchronizer to its initial state. CP is
the ceiling of the exact product of R103. -/
def Obligations.CfgApply : Prop :=
  decode 0x00000001 = .command .cfgApply ∧
  ∀ s : State,
    (∀ code info, firstFailure (commandChecks .cfgApply s) = some (code, info) →
      exec .cfgApply s = .next (s.failed code info)) ∧
    (firstFailure (commandChecks .cfgApply s) = none →
      let c := s.latch.staging
      let k := c.subc.toNat
      let p := c.pilot.toNat
      let n := c.symlen.toNat
      let cp := ⌈ratOf c.cpf * n⌉₊
      let r := n + cp
      let w := if c.wsel = false then n else r
      exec .cfgApply s = .next
        { s with
          cfgValid := true
          sync := Sync.reset
          act :=
            { k := k
              p := p
              n := n
              d := k - p
              cp := cp
              r := r
              w := w
              l := smooth7 (3 * w - 1)
              c := c.maxsym.toNat * r + (c.ne.toNat + 1) * w
              m := c.modOrder.toNat
              pilots := pilotIndices k p
              data := dataIndices k p
              ns := c.ns.toNat
              ne := c.ne.toNat
              thresh := c.thresh
              disp := c.disp.toNat
              maxsym := c.maxsym.toNat
              preS := c.preStart.toNat
              preE := c.preEnd.toNat
              cap := c.capBase.toNat } }.done)

/-- R105: LAYOUT_DUMP writes the pilot indices, then the data indices, or ends in its first failing check. -/
def Obligations.LayoutDump : Prop :=
  decode 0x00000002 = .command .layoutDump ∧
  ∀ s : State,
    (∀ code info, firstFailure (commandChecks .layoutDump s) = some (code, info) →
      exec .layoutDump s = .next (s.failed code info)) ∧
    (firstFailure (commandChecks .layoutDump s) = none →
      exec .layoutDump s = .next
        { s with
          mem := applyWrites s.mem
            [(s.arg 0, s.act.pilots.map (BitVec.ofNat 32)),
              (s.arg 1, s.act.data.map (BitVec.ofNat 32))] }.done)

/-- R102: the pilot indices of 1 ≤ K and P < K: the exact position rounded half up, less one; strictly increasing
and at most K - 2; and the data indices, ascending, are the other subcarriers, K - P of them. -/
def Obligations.PilotLayout : Prop :=
  ∀ (c : Staging) (k p : Nat), c.subc.toNat = k → c.pilot.toNat = p → 1 ≤ k → p < k →
    let pilots := (derive c).pilots
    let data := (derive c).data
    pilots.length = p ∧
    (∀ (i : Nat) (h : i < pilots.length),
      (pilots[i] : Int) = ⌊(((i + 1) * k : ℕ) : ℚ) / ((p + 1 : ℕ) : ℚ) + 1 / 2⌋ - 1) ∧
    pilots.Pairwise (· < ·) ∧
    (∀ x ∈ pilots, x + 2 ≤ k) ∧
    data.Pairwise (· < ·) ∧
    data.length = k - p ∧ (derive c).d = k - p ∧
    (∀ x, x ∈ data ↔ x < k ∧ x ∉ pilots)

/-- R103: for a legal cyclicPrefixFactor f (0 ≤ f ≤ 1, R33) CP is the ceiling of the exact product f·N, at most
N, and R = N + CP. -/
def Obligations.CyclicPrefix : Prop :=
  ∀ c : Staging, isNaN c.cpf = false → 0 ≤ ratOf c.cpf → ratOf c.cpf ≤ 1 →
    ((derive c).cp : Int) = ⌈ratOf c.cpf * (c.symlen.toNat : ℚ)⌉ ∧
    (derive c).cp ≤ c.symlen.toNat ∧
    (derive c).r = c.symlen.toNat + (derive c).cp

/-- R104: W is N or R by WSEL, L is the least number from 3W - 1 on with no prime factor outside 2, 3, 5, 7, and
C = MAXSYM·R + (NE + 1)·W. -/
def Obligations.SyncGeometry : Prop :=
  ∀ c : Staging, 1 ≤ c.symlen.toNat →
    let a := derive c
    (c.wsel = false → a.w = c.symlen.toNat) ∧
    (c.wsel = true → a.w = a.r) ∧
    IsLeast { m : Nat | 3 * a.w - 1 ≤ m ∧ ∀ q, q.Prime → q ∣ m → q ∈ [2, 3, 5, 7] } a.l ∧
    a.c = c.maxsym.toNat * a.r + (c.ne.toNat + 1) * a.w

/-! ### Transforms (spec/41_fft.md) -/

/-- R122: the table begins at 1 + 0i, each entry is the one before turned by the seed in the stated operation
order, and TABLE(4, 8) is the example of the rule. The seeds of d = 1, 2 and 4 are exact; for every d up to
131072, the largest that a legal instance uses, no finite binary32 value is nearer to the real cosine or sine of 2π/d
than the seed's part by more than 2^-60. That no value is nearer at all is log 9 (UNVERIFIED) and not stated. -/
def Obligations.TableRecurrence : Prop :=
  (∀ (count d : Nat) (h : 0 < (trigTable count d).length),
    (trigTable count d)[0] = ⟨0x3F800000, 0x00000000⟩) ∧
  (∀ count d : Nat, (trigTable count d).length = count) ∧
  (∀ (count d t : Nat) (h : t + 1 < (trigTable count d).length),
    (trigTable count d)[t + 1] =
      ⟨fsub (fmul (trigTable count d)[t].re (trigSeed d).re) (fmul (trigTable count d)[t].im (trigSeed d).im),
        fadd (fmul (trigTable count d)[t].im (trigSeed d).re)
          (fmul (trigTable count d)[t].re (trigSeed d).im)⟩) ∧
  trigSeed 1 = ⟨0x3F800000, 0x00000000⟩ ∧
  trigSeed 2 = ⟨0xBF800000, 0x00000000⟩ ∧
  trigSeed 4 = ⟨0x00000000, 0x3F800000⟩ ∧
  (∀ d : Nat, 1 ≤ d → d ≤ 131072 →
    IsFinite (trigSeed d).re ∧ IsFinite (trigSeed d).im ∧
    ∀ z : F32, IsFinite z →
      |((ratOf (trigSeed d).re : ℚ) : ℝ) - Real.cos (2 * Real.pi / d)| ≤
        |((ratOf z : ℚ) : ℝ) - Real.cos (2 * Real.pi / d)| + 1 / 2 ^ 60 ∧
      |((ratOf (trigSeed d).im : ℚ) : ℝ) - Real.sin (2 * Real.pi / d)| ≤
        |((ratOf z : ℚ) : ℝ) - Real.sin (2 * Real.pi / d)| + 1 / 2 ^ 60) ∧
  trigTable 4 8 =
    [⟨0x3F800000, 0x00000000⟩, ⟨0x3F3504F3, 0x3F3504F3⟩, ⟨0x00000000, 0x3F7FFFFF⟩,
      ⟨0xBF3504F2, 0x3F3504F3⟩]

/-- R123: reversing b bits is an involution on the indices below 2^b, so that its swaps put element rev(i) at i;
a pass at block size `size` gives each pair (j, l) of each block its butterfly, both outputs from the values before
it; and FWD2 of 2^b values is the bit reversal and then the passes at sizes 2, 4, …, 2^b, each on the result of the
one before, with the table TABLE(n/2, n). -/
def Obligations.RadixTwo : Prop :=
  (∀ b i : Nat, i < 2 ^ b → bitReverse b i < 2 ^ b ∧ bitReverse b (bitReverse b i) = i) ∧
  (∀ b i k : Nat, k < b → (bitReverse b i).testBit k = i.testBit (b - 1 - k)) ∧
  (∀ (b : Nat) (x : Array Cx), (bitReversed b x).size = 2 ^ b ∧
    ∀ i < 2 ^ b, Cx.at (bitReversed b x) i = Cx.at x (bitReverse b i)) ∧
  (∀ (n half blocks block t : Nat) (tw x : Array Cx), n = blocks * (2 * half) → block < blocks → t < half →
    let j := block * (2 * half) + t
    let l := j + half
    let c := (Cx.at tw (t * blocks)).re
    let s := (Cx.at tw (t * blocks)).im
    let tre := fadd (fmul (Cx.at x l).re c) (fmul (Cx.at x l).im s)
    let tim := fsub (fmul (Cx.at x l).im c) (fmul (Cx.at x l).re s)
    (butterflyPass n (2 * half) tw x).size = n ∧
    Cx.at (butterflyPass n (2 * half) tw x) l =
      ⟨fsub (Cx.at x j).re tre, fsub (Cx.at x j).im tim⟩ ∧
    Cx.at (butterflyPass n (2 * half) tw x) j =
      ⟨fadd (Cx.at x j).re tre, fadd (Cx.at x j).im tim⟩) ∧
  (∀ (b : Nat) (x : List Cx) (after : Nat → Array Cx),
    after 0 = bitReversed b x.toArray →
    (∀ p < b, after (p + 1) =
      butterflyPass (2 ^ b) (2 ^ (p + 1)) (trigTable (2 ^ b / 2) (2 ^ b)).toArray (after p)) →
    fwd2 b x = (after b).toList)

/-- R124, R125: the convolution length is the least power of two that is at least 2n - 1; the chirp factor of i is
table entry i² mod 2n; the kernel holds factor i at i and at m - i, and zero between; and FWD_BLUESTEIN multiplies
value i by the conjugate of factor i, pads to the convolution length, convolves with the kernel, and multiplies
value i of the result by the conjugate of factor i, each product in the rule's order of operations. -/
def Obligations.BluesteinKernel : Prop :=
  (∀ n : Nat, 1 ≤ n →
    IsLeast { m : Nat | 2 * n - 1 ≤ m ∧ ∃ b, m = 2 ^ b } (2 ^ ceilLog2 (2 * n - 1))) ∧
  (∀ n i : Nat, i < n → (chirp n)[i]? = (trigTable (2 * n) (2 * n))[i * i % (2 * n)]?) ∧
  (∀ (m : Nat) (ch : List Cx), 1 ≤ ch.length → 2 * ch.length - 1 ≤ m →
    (bluesteinKernel m ch).length = m ∧
    (∀ i < ch.length, (bluesteinKernel m ch)[i]? = ch[i]?) ∧
    (∀ i < ch.length, 1 ≤ i → (bluesteinKernel m ch)[m - i]? = ch[i]?) ∧
    (∀ i, ch.length ≤ i → i + ch.length ≤ m → (bluesteinKernel m ch)[i]? = some ⟨0, 0⟩)) ∧
  (∀ x : List Cx, 1 ≤ x.length →
    let n := x.length
    let m := 2 ^ ceilLog2 (2 * n - 1)
    let turned := fun (y : List Cx) (i : Nat) =>
      let re := (y.getD i ⟨0, 0⟩).re
      let im := (y.getD i ⟨0, 0⟩).im
      let cc := ((chirp n).getD i ⟨0, 0⟩).re
      let ss := ((chirp n).getD i ⟨0, 0⟩).im
      Cx.mk (fadd (fmul re cc) (fmul im ss)) (fsub (fmul im cc) (fmul re ss))
    let a := (List.range m).map fun i => if i < n then turned x i else ⟨0, 0⟩
    fwdBluestein x = (List.range n).map (turned (conv a (bluesteinKernel m (chirp n)))))

/-- R129, R130: FFT_FWD and FFT_INV end in the error of their first failing check, or write the transform of the
complex array at ARG0 and ARG1 in its place, the re region first. R121: FWD of nothing is nothing, of 2^b values
FWD2, of any other number of values FWD_BLUESTEIN. R126: INV exchanges the parts, transforms forward, exchanges the
parts and divides by F(n). -/
def Obligations.TransformsInPlace : Prop :=
  decode 0x00000010 = .command .fftFwd ∧ decode 0x00000011 = .command .fftInv ∧
  ∀ (s : State) (re im : List F32),
    (∀ code info, firstFailure (commandChecks .fftFwd s) = some (code, info) →
      exec .fftFwd s = .next (s.failed code info) ∧ exec .fftInv s = .next (s.failed code info)) ∧
    (firstFailure (commandChecks .fftFwd s) = none →
      re.length = s.arg 2 → im.length = s.arg 2 → Holds s.mem (s.arg 0) re → Holds s.mem (s.arg 1) im →
      exec .fftFwd s = .next
        { s with
          mem := applyWrites s.mem
            [(s.arg 0, (fwd (cxZip re im)).map Cx.re), (s.arg 1, (fwd (cxZip re im)).map Cx.im)] }.done ∧
      exec .fftInv s = .next
        { s with
          mem := applyWrites s.mem
            [(s.arg 0, (inv (cxZip re im)).map Cx.re), (s.arg 1, (inv (cxZip re im)).map Cx.im)] }.done) ∧
    fwd [] = [] ∧
    (∀ (b : Nat) (x : List Cx), x.length = 2 ^ b → fwd x = fwd2 b x) ∧
    (∀ x : List Cx, x ≠ [] → (∀ b, x.length ≠ 2 ^ b) → fwd x = fwdBluestein x) ∧
    (∀ x : List Cx,
      inv x = (fwd (x.map fun z => ⟨z.im, z.re⟩)).map fun z =>
        ⟨fdiv z.im (fOfNat x.length), fdiv z.re (fOfNat x.length)⟩)

/-- R131, R127: CCONV ends in the error of its first failing check, or writes the inverse transform of the
product of the transforms, out.re first. CONV of two lists is that too, and the product of two values is the complex
product of R12. -/
def Obligations.CircularConvolution : Prop :=
  decode 0x00000012 = .command .cconv ∧
  ∀ (s : State) (xre xim yre yim : List F32),
    (∀ code info, firstFailure (commandChecks .cconv s) = some (code, info) →
      exec .cconv s = .next (s.failed code info)) ∧
    (firstFailure (commandChecks .cconv s) = none →
      xre.length = s.arg 6 → xim.length = s.arg 6 → yre.length = s.arg 6 → yim.length = s.arg 6 →
      Holds s.mem (s.arg 0) xre → Holds s.mem (s.arg 1) xim →
      Holds s.mem (s.arg 2) yre → Holds s.mem (s.arg 3) yim →
      let out := inv (List.zipWith cmul (fwd (cxZip xre xim)) (fwd (cxZip yre yim)))
      exec .cconv s = .next
        { s with mem := applyWrites s.mem [(s.arg 4, out.map Cx.re), (s.arg 5, out.map Cx.im)] }.done) ∧
    (∀ x y : List Cx, conv x y = inv (List.zipWith cmul (fwd x) (fwd y))) ∧
    (∀ x y : Cx, cmul x y =
      ⟨fsub (fmul x.re y.re) (fmul x.im y.im), fadd (fmul x.im y.re) (fmul x.re y.im)⟩)

/-! ### Correlator and synchronizer (spec/42_sync.md) -/

/-- R141, R142: there are W correlation values, one for each lag in [0, W): value `lag` is the real part of
element lag + W - 1 of the convolution, at length L, of the zero-padded probe and the zero-padded reversed
preamble. -/
def Obligations.CorrelationWindow : Prop :=
  ∀ (w l : Nat) (probe pre : List F32), 1 ≤ w → 3 * w - 1 ≤ l → probe.length = 2 * w → pre.length = w →
    let a := (probe ++ List.replicate (l - 2 * w) 0).map fun x => Cx.mk x 0
    let b := (pre.reverse ++ List.replicate (l - w) 0).map fun x => Cx.mk x 0
    a.length = l ∧ b.length = l ∧ (conv a b).length = l ∧
    (correlate w l probe pre).length = w ∧
    ∀ lag < w, (correlate w l probe pre)[lag]? = ((conv a b)[lag + (w - 1)]?).map Cx.re

/-- R143: the peak is the largest magnitude and its lag the lowest that has it; a NaN at a lag above 0 never
replaces it, and a NaN at lag 0 stays; a mean of zero gives the statistic +0. -/
def Obligations.PeakIsLowestMaximum : Prop :=
  ∀ (c : List F32) (x : F32) (rest : List F32), c = x :: rest →
    let d := detect c.length c
    let mag := c.map fabs
    mag[d.lag]? = some d.peak ∧
    (isNaN x = true → d.lag = 0) ∧
    (∀ m ∈ mag, fgt m d.peak = false) ∧
    (isNaN x = false → ∀ j < d.lag, ∀ m, mag[j]? = some m → isNaN m = true ∨ fgt d.peak m = true) ∧
    (let mean := fdiv (mag.foldl fadd 0) (fOfNat c.length)
     d.stat = if feq mean 0 = true then 0 else fdiv d.peak mean)

/-- R146: for a history of n ≥ 1 lags below W, the test holds exactly when the population standard deviation of
the lags is at most DISP, and the boundary is the mean lag rounded half up, below W. The two examples of the rule
hold. -/
def Obligations.DispersionTest : Prop :=
  (∀ (h : List Nat) (w disp : Nat), h ≠ [] → (∀ x ∈ h, x < w) →
    let n : ℚ := h.length
    let mean : ℚ := (h.sum : ℚ) / n
    let variance : ℚ := (h.map fun x => ((x : ℚ) - mean) ^ 2).sum / n
    (dispersionOk h.length disp h = true ↔ variance ≤ (disp : ℚ) ^ 2) ∧
    (boundaryOf h.length h : Int) = ⌊mean + 1 / 2⌋ ∧
    boundaryOf h.length h < w) ∧
  (∀ disp, dispersionOk 3 disp [10, 10, 10] = true) ∧ boundaryOf 3 [10, 10, 10] = 10 ∧
  dispersionOk 3 10 [10, 40, 10] = false

/-- R148: XCORR and XCORR.SEL end in the error of their first failing check, or write the correlation against the
start or the end waveform, and lag, peak, statistic and test to RES0-RES3, and change nothing else. -/
def Obligations.Xcorr : Prop :=
  decode 0x00000020 = .command .xcorr ∧ decode 0x00000120 = .command .xcorrSel ∧
  ∀ (s : State) (probe pre : List F32),
    let c := correlate s.act.w s.act.l probe pre
    let d := detect s.act.w c
    let t := { s with
      mem := writeWords s.mem (s.arg 1) c
      res := #v[BitVec.ofNat 32 d.lag, d.peak, d.stat, if fgt d.stat s.act.thresh then 1 else 0] }
    (∀ code info, firstFailure (commandChecks .xcorr s) = some (code, info) →
      exec .xcorr s = .next (s.failed code info) ∧ exec .xcorrSel s = .next (s.failed code info)) ∧
    (firstFailure (commandChecks .xcorr s) = none →
      probe.length = 2 * s.act.w → pre.length = s.act.w → Holds s.mem (s.arg 0) probe →
      (Holds s.mem s.act.preS pre → exec .xcorr s = .next t.done) ∧
      (Holds s.mem s.act.preE pre → exec .xcorrSel s = .next t.done))

/-- R149, R150: SYNC_PUSH ends in the error of its first failing check; with PREV_VALID = 0 it caches the window,
records PRIMED and changes neither histories nor MODE nor DMEM. -/
def Obligations.SyncPushPriming : Prop :=
  decode 0x00000021 = .command .syncPush ∧
  ∀ (s : State) (cur : List F32),
    (∀ code info, firstFailure (commandChecks .syncPush s) = some (code, info) →
      exec .syncPush s = .next (s.failed code info)) ∧
    (firstFailure (commandChecks .syncPush s) = none →
      cur.length = s.act.w → Holds s.mem (s.arg 0) cur → s.sync.prevValid = false →
      exec .syncPush s = .next
        { s with
          sync := { s.sync with event := .primed, prev := cur, prevValid := true }
          res := #v[1, 0, s.sync.lag, s.sync.stat] }.done)

/-- R151, R152, R144, R145, R147: a correlating SYNC_PUSH in SEARCHING_START. A failed test empties HIST_S
(NO_DETECT); a passed one pushes the lag, evicting the oldest of a full history (CANDIDATE); a full history that
passes the dispersion test starts a capture at sample b of the window (START). -/
def Obligations.SyncPushSearching : Prop :=
  ∀ (s : State) (cur pre : List F32),
    firstFailure (commandChecks .syncPush s) = none →
    cur.length = s.act.w → pre.length = s.act.w →
    Holds s.mem (s.arg 0) cur → Holds s.mem s.act.preS pre →
    s.sync.prevValid = true → s.sync.mode = .searchingStart →
    let d := detect s.act.w (correlate s.act.w s.act.l (s.sync.prev ++ cur) pre)
    let seen := { s.sync with
      lag := BitVec.ofNat 32 d.lag, peak := d.peak, stat := d.stat, prev := cur, prevValid := true }
    let h := (if s.sync.histS.length = s.act.ns then s.sync.histS.tail else s.sync.histS) ++ [d.lag]
    let accepted := h.length = s.act.ns ∧ dispersionOk s.act.ns s.act.disp h = true
    let b := boundaryOf s.act.ns h
    (fgt d.stat s.act.thresh = false →
      exec .syncPush s = .next
        { s with
          sync := { seen with histS := [], event := .noDetect }
          res := #v[2, 0, BitVec.ofNat 32 d.lag, d.stat] }.done) ∧
    (fgt d.stat s.act.thresh = true → ¬ accepted →
      exec .syncPush s = .next
        { s with
          sync := { seen with histS := h, event := .candidate }
          res := #v[3, 0, BitVec.ofNat 32 d.lag, d.stat] }.done) ∧
    (fgt d.stat s.act.thresh = true → accepted →
      exec .syncPush s = .next
        { s with
          sync :=
            { seen with
              mode := .capturing
              histS := []
              histE := []
              capLen := s.act.w - b
              bound := BitVec.ofNat 32 b
              event := .start }
          mem := writeWords s.mem s.act.cap (cur.drop b)
          res := #v[4, 0, BitVec.ofNat 32 d.lag, d.stat]
          irqStatus := s.irqStatus ||| 0b00100 }.done)

/-- R153, R154, R155, R145: a correlating SYNC_PUSH in CAPTURING. An accepted end boundary emits the frame and
appends nothing (FRAME); otherwise the window is appended, whatever the outcome of the test, unless the capture
would pass its ceiling (TOOLONG). -/
def Obligations.SyncPushCapturing : Prop :=
  ∀ (s : State) (cur pre : List F32),
    firstFailure (commandChecks .syncPush s) = none →
    cur.length = s.act.w → pre.length = s.act.w →
    Holds s.mem (s.arg 0) cur → Holds s.mem s.act.preE pre →
    s.sync.prevValid = true → s.sync.mode = .capturing →
    let d := detect s.act.w (correlate s.act.w s.act.l (s.sync.prev ++ cur) pre)
    let seen := { s.sync with
      lag := BitVec.ofNat 32 d.lag, peak := d.peak, stat := d.stat, prev := cur, prevValid := true }
    let pass := fgt d.stat s.act.thresh
    let h := if pass = true then
        (if s.sync.histE.length = s.act.ne then s.sync.histE.tail else s.sync.histE) ++ [d.lag]
      else []
    let accepted := pass = true ∧ h.length = s.act.ne ∧ dispersionOk s.act.ne s.act.disp h = true
    let b := boundaryOf s.act.ne h
    let frame := s.sync.capLen + b - s.act.ne * s.act.w
    (accepted →
      exec .syncPush s = .next
        { s with
          sync :=
            { seen with
              mode := .searchingStart
              histS := []
              histE := []
              capLen := 0
              bound := BitVec.ofNat 32 b
              frameLen := BitVec.ofNat 32 frame
              event := .frame }
          res := #v[5, BitVec.ofNat 32 frame, BitVec.ofNat 32 d.lag, d.stat]
          irqStatus := s.irqStatus ||| 0b01000 }.done) ∧
    (¬ accepted → s.act.c < s.sync.capLen + s.act.w →
      exec .syncPush s = .next
        { s with
          sync :=
            { seen with
              mode := .searchingStart
              histS := []
              histE := []
              capLen := 0
              event := .tooLong }
          res := #v[6, 0, BitVec.ofNat 32 d.lag, d.stat]
          irqStatus := s.irqStatus ||| 0b10000 }.done) ∧
    (¬ accepted → s.sync.capLen + s.act.w ≤ s.act.c →
      exec .syncPush s = .next
        { s with
          sync :=
            { seen with
              histE := h
              capLen := s.sync.capLen + s.act.w
              event := if pass = true then .candidate else .noDetect }
          mem := writeWords s.mem (s.act.cap + s.sync.capLen) cur
          res := #v[if pass = true then 3 else 2, 0, BitVec.ofNat 32 d.lag, d.stat] }.done)

/-- R140, R156: the only changes of MODE that a command makes: to CAPTURING by a SYNC_PUSH whose event is START; to
SEARCHING_START by a SYNC_PUSH whose event is FRAME or TOOLONG, by SYNC_RESET, and by CFG_APPLY that succeeds.
After FRAME and TOOLONG both histories are empty and CAPLEN is 0. -/
def Obligations.ModeTransitions : Prop :=
  ∀ (i : Instr) (s t : State), exec i s = .next t →
    (s.sync.mode = .searchingStart → t.sync.mode = .capturing →
      i = .syncPush ∧ t.sync.event = .start ∧ t.irqStatus.getLsbD 2 = true) ∧
    (s.sync.mode = .capturing → t.sync.mode = .searchingStart →
      (i = .syncPush ∧ (t.sync.event = .frame ∨ t.sync.event = .tooLong)) ∨ i = .syncReset ∨
        (i = .cfgApply ∧ t.errCode = .ok)) ∧
    (i = .syncPush → t.errCode = .ok → t.sync.event = .frame ∨ t.sync.event = .tooLong →
      t.sync.mode = .searchingStart ∧ t.sync.histS = [] ∧ t.sync.histE = [] ∧ t.sync.capLen = 0)

/-! ### OFDM (spec/43_ofdm.md) -/

/-- R170, R171: in a configuration that CFG_APPLY could have set, a symbol's spectrum has the data values on the
DATA bins, the pilot values on the PILOTS bins and +0 + 0i on every other bin, those from K on among them; an
encoded symbol is the last CP samples of the inverse transform and then all of it, R samples; and the decoder
transforms samples CP … CP + N - 1. -/
def Obligations.SubcarriersOnTheirBins : Prop :=
  ∀ (hw : HwParams) (a : Active) (d p : List Cx), ActiveOk hw a → d.length = a.d → p.length = a.p →
    let x := (symbolSpectrum a d p).toList
    let y := encSymbol a d p
    x.length = a.n ∧
    (∀ j < a.d, ∀ bin, a.data[j]? = some bin → x[bin]? = d[j]?) ∧
    (∀ i < a.p, ∀ bin, a.pilots[i]? = some bin → x[bin]? = p[i]?) ∧
    (∀ bin, a.k ≤ bin → bin < a.n → x[bin]? = some ⟨0, 0⟩) ∧
    y.length = a.r ∧
    (∀ t < a.cp, y[t]? = (inv x)[a.n - a.cp + t]?) ∧
    (∀ t < a.n, y[a.cp + t]? = (inv x)[t]?) ∧
    (∀ w : List Cx, w.length = a.r →
      let f := fwd ((List.range a.n).map fun t => w.getD (a.cp + t) ⟨0, 0⟩)
      (∀ j < a.d, ∀ bin, a.data[j]? = some bin → (decSymbol a w).1[j]? = f[bin]?) ∧
      (∀ i < a.p, ∀ bin, a.pilots[i]? = some bin → (decSymbol a w).2[i]? = f[bin]?))

/-- R172: OFDM_ENC and OFDM_ENC.IMAG_OUT end in the error of their first failing check, or write sample t of
symbol j at offset j·R + t, the symbol encoded from data values j·D … and pilot values j·P …; the imaginary part
only with IMAG_OUT. -/
def Obligations.OfdmEncode : Prop :=
  decode 0x00000030 = .command .ofdmEnc ∧ decode 0x00000130 = .command .ofdmEncImagOut ∧
  ∀ (s : State) (dre dim pre pim : List F32),
    let count := s.arg 6
    let d := fun j => ((cxZip dre dim).drop (j * s.act.d)).take s.act.d
    let p := fun j => ((cxZip pre pim).drop (j * s.act.p)).take s.act.p
    let y := (List.range count).flatMap fun j => encSymbol s.act (d j) (p j)
    (∀ code info, firstFailure (commandChecks .ofdmEnc s) = some (code, info) →
      exec .ofdmEnc s = .next (s.failed code info)) ∧
    (∀ code info, firstFailure (commandChecks .ofdmEncImagOut s) = some (code, info) →
      exec .ofdmEncImagOut s = .next (s.failed code info)) ∧
    (dre.length = count * s.act.d → dim.length = count * s.act.d →
      pre.length = count * s.act.p → pim.length = count * s.act.p →
      Holds s.mem (s.arg 0) dre → Holds s.mem (s.arg 1) dim →
      Holds s.mem (s.arg 2) pre → Holds s.mem (s.arg 3) pim →
      (firstFailure (commandChecks .ofdmEnc s) = none →
        exec .ofdmEnc s = .next { s with mem := writeWords s.mem (s.arg 4) (y.map Cx.re) }.done) ∧
      (firstFailure (commandChecks .ofdmEncImagOut s) = none →
        exec .ofdmEncImagOut s = .next
          { s with
            mem := applyWrites s.mem [(s.arg 4, y.map Cx.re), (s.arg 5, y.map Cx.im)] }.done))

/-- R173: OFDM_DEC and OFDM_DEC.IMAG_IN end in the error of their first failing check, or write the data and pilot
values of every symbol, symbol-major: data.re, data.im, pilot.re, pilot.im. Without IMAG_IN the imaginary input is
+0 and ARG1 is ignored. -/
def Obligations.OfdmDecode : Prop :=
  decode 0x00000031 = .command .ofdmDec ∧ decode 0x00000131 = .command .ofdmDecImagIn ∧
  ∀ (s : State) (re im : List F32),
    let count := s.arg 6
    let outs := fun (im : List F32) => (List.range count).map fun j =>
      decSymbol s.act (((cxZip re im).drop (j * s.act.r)).take s.act.r)
    let written := fun (im : List F32) =>
      { s with
        mem := applyWrites s.mem
          [(s.arg 2, (outs im).flatMap fun (o : List Cx × List Cx) => o.1.map Cx.re),
            (s.arg 3, (outs im).flatMap fun (o : List Cx × List Cx) => o.1.map Cx.im),
            (s.arg 4, (outs im).flatMap fun (o : List Cx × List Cx) => o.2.map Cx.re),
            (s.arg 5, (outs im).flatMap fun (o : List Cx × List Cx) => o.2.map Cx.im)] }
    (∀ code info, firstFailure (commandChecks .ofdmDec s) = some (code, info) →
      exec .ofdmDec s = .next (s.failed code info)) ∧
    (∀ code info, firstFailure (commandChecks .ofdmDecImagIn s) = some (code, info) →
      exec .ofdmDecImagIn s = .next (s.failed code info)) ∧
    (re.length = count * s.act.r → Holds s.mem (s.arg 0) re →
      (firstFailure (commandChecks .ofdmDec s) = none →
        exec .ofdmDec s = .next (written (List.replicate (count * s.act.r) 0)).done) ∧
      (firstFailure (commandChecks .ofdmDecImagIn s) = none →
        im.length = count * s.act.r → Holds s.mem (s.arg 1) im →
        exec .ofdmDecImagIn s = .next (written im).done))

/-- R174: REALIGN ends in the error of its first failing check, or writes E·R words: the raw words with zeros
around them, floor of half the difference on the left, or, of a longer input, the words from that offset on. -/
def Obligations.Realign : Prop :=
  decode 0x00000032 = .command .realign ∧
  ∀ (s : State) (raw : List Word),
    let total := s.arg 2 * s.act.r
    (∀ code info, firstFailure (commandChecks .realign s) = some (code, info) →
      exec .realign s = .next (s.failed code info)) ∧
    (firstFailure (commandChecks .realign s) = none → raw.length = s.arg 1 → Holds s.mem (s.arg 0) raw →
      ∃ out : List Word, out.length = total ∧
        (raw.length ≤ total →
          let left := (total - raw.length) / 2
          ∀ j < total, out[j]? =
            if left ≤ j ∧ j < left + raw.length then raw[j - left]? else some 0) ∧
        (total ≤ raw.length → ∀ j < total, out[j]? = raw[(raw.length - total) / 2 + j]?) ∧
        exec .realign s = .next { s with mem := writeWords s.mem (s.arg 3) out }.done)

/-! ### Channel (spec/44_channel.md) -/

/-- R190: CH_EST ends in the error of its first failing check, or sets CORR to the mean of the per-pilot ratios,
real and imaginary parts summed in element order from +0 and divided by F(n); of no pilots, to 1 + 0i. -/
def Obligations.ChannelEstimate : Prop :=
  decode 0x00000040 = .command .chEst ∧
  ∀ (s : State) (kre kim rre rim : List F32),
    let n := s.arg 4
    let den := fun i => fadd (fmul (rre.getD i 0) (rre.getD i 0)) (fmul (rim.getD i 0) (rim.getD i 0))
    let nr := fun i => fadd (fmul (kre.getD i 0) (rre.getD i 0)) (fmul (kim.getD i 0) (rim.getD i 0))
    let ni := fun i => fsub (fmul (kim.getD i 0) (rre.getD i 0)) (fmul (kre.getD i 0) (rim.getD i 0))
    let sr := (List.range n).foldl (fun acc i => fadd acc (fdiv (nr i) (den i))) 0
    let si := (List.range n).foldl (fun acc i => fadd acc (fdiv (ni i) (den i))) 0
    (∀ code info, firstFailure (commandChecks .chEst s) = some (code, info) →
      exec .chEst s = .next (s.failed code info)) ∧
    (firstFailure (commandChecks .chEst s) = none →
      kre.length = n → kim.length = n → rre.length = n → rim.length = n →
      Holds s.mem (s.arg 0) kre → Holds s.mem (s.arg 1) kim →
      Holds s.mem (s.arg 2) rre → Holds s.mem (s.arg 3) rim →
      exec .chEst s = .next
        { s with
          corrRe := if n = 0 then 0x3F800000 else fdiv sr (fOfNat n)
          corrIm := if n = 0 then 0x00000000 else fdiv si (fOfNat n) }.done)

/-- R191: CH_EQ ends in the error of its first failing check, or writes each value times CORR as latched at
acceptance, out.re first; and that product is the complex product of R12. -/
def Obligations.ChannelEqualize : Prop :=
  decode 0x00000041 = .command .chEq ∧
  ∀ (s : State) (re im : List F32),
    let cr := s.latch.corrRe
    let ci := s.latch.corrIm
    let outRe := List.zipWith (fun x y => fsub (fmul x cr) (fmul y ci)) re im
    let outIm := List.zipWith (fun x y => fadd (fmul x ci) (fmul y cr)) re im
    (∀ code info, firstFailure (commandChecks .chEq s) = some (code, info) →
      exec .chEq s = .next (s.failed code info)) ∧
    (firstFailure (commandChecks .chEq s) = none →
      re.length = s.arg 4 → im.length = s.arg 4 → Holds s.mem (s.arg 0) re → Holds s.mem (s.arg 1) im →
      exec .chEq s = .next
        { s with mem := applyWrites s.mem [(s.arg 2, outRe), (s.arg 3, outIm)] }.done) ∧
    cxZip outRe outIm = (cxZip re im).map fun x => cmul x ⟨cr, ci⟩

/-! ### PSK (spec/45_psk.md) -/

/-- R201, R202: G_M is a Gray code of the symbols below M, each table as written, and the points are the words of
the rule. -/
def Obligations.PskTables : Prop :=
  grayTable 2 = [0, 1] ∧ grayTable 4 = [0, 2, 3, 1] ∧ grayTable 8 = [0, 4, 6, 2, 3, 7, 5, 1] ∧
  (∀ m ∈ [2, 4, 8], ∀ p < m,
    ((grayTable m).getD p 0 ^^^ (grayTable m).getD ((p + 1) % m) 0) ∈ [1, 2, 4] ∧
    decideSymbol m (pointOf m ((grayTable m).getD p 0)).re (pointOf m ((grayTable m).getD p 0)).im =
      (grayTable m).getD p 0) ∧
  (List.range 2).map (pointOf 2) = [⟨0x00000000, 0x3F800000⟩, ⟨0x00000000, 0xBF800000⟩] ∧
  (List.range 4).map (pointOf 4) =
    [⟨0x3F3504F3, 0x3F3504F3⟩, ⟨0x3F3504F3, 0xBF3504F3⟩, ⟨0xBF3504F3, 0x3F3504F3⟩,
      ⟨0xBF3504F3, 0xBF3504F3⟩] ∧
  (List.range 8).map (pointOf 8) =
    [⟨0x3F6C835E, 0x3EC3EF15⟩, ⟨0x3F6C835E, 0xBEC3EF15⟩, ⟨0xBF6C835E, 0x3EC3EF15⟩,
      ⟨0xBF6C835E, 0xBEC3EF15⟩, ⟨0x3EC3EF15, 0x3F6C835E⟩, ⟨0x3EC3EF15, 0xBF6C835E⟩,
      ⟨0xBEC3EF15, 0x3F6C835E⟩, ⟨0xBEC3EF15, 0xBF6C835E⟩]

/-- R203: for a finite value other than zero, the position is the sector [2πp/M, 2π(p+1)/M) that holds its angle,
each boundary belonging to the sector above; for zeros of either sign, the sign of x places the angle at 0 or π;
with an infinity the decision is that of a value with 2 for each infinity and 1 for each finite part but a zero, of
the same signs; the symbol is the one at that position; a NaN decides 0. -/
def Obligations.PskSectors : Prop :=
  (∀ (m : Nat) (x y : F32), m ∈ [2, 4, 8] → IsFinite x → IsFinite y → (ratOf x ≠ 0 ∨ ratOf y ≠ 0) →
    ∃ radius angle : ℝ, 0 < radius ∧
      2 * Real.pi * (position m x y : ℝ) / (m : ℝ) ≤ angle ∧
      angle < 2 * Real.pi * ((position m x y : ℝ) + 1) / (m : ℝ) ∧
      position m x y < m ∧
      ((ratOf x : ℚ) : ℝ) = radius * Real.cos angle ∧ ((ratOf y : ℚ) : ℝ) = radius * Real.sin angle ∧
      decideSymbol m x y = (grayTable m).getD (position m x y) 0) ∧
  (∀ (m : Nat) (x y : F32), m ∈ [2, 4, 8] → IsFinite x → IsFinite y → ratOf x = 0 → ratOf y = 0 →
    decideSymbol m x y = (grayTable m).getD (if signBit x = true then m / 2 else 0) 0) ∧
  (∀ (m : Nat) (x y : F32), m ∈ [2, 4, 8] → isNaN x = false → isNaN y = false →
    (¬ IsFinite x ∨ ¬ IsFinite y) →
    let near := fun v : F32 =>
      if ¬ IsFinite v then (v &&& 0x80000000) ||| 0x40000000
      else if ratOf v = 0 then v
      else (v &&& 0x80000000) ||| 0x3F800000
    decideSymbol m x y = decideSymbol m (near x) (near y)) ∧
  (∀ (m : Nat) (x y : F32), isNaN x = true ∨ isNaN y = true → decideSymbol m x y = 0)

/-- R204: PSK_MOD ends in the error of its first failing check; at the first symbol that is not below M it ends in
SYMBOL_RANGE with its index, whatever DMEM holds after it (log 19); otherwise it writes the points of the symbols,
out.re first. -/
def Obligations.PskModulate : Prop :=
  decode 0x00000050 = .command .pskMod ∧
  ∀ (s : State) (syms : List Word),
    (∀ code info, firstFailure (commandChecks .pskMod s) = some (code, info) →
      exec .pskMod s = .next (s.failed code info)) ∧
    (firstFailure (commandChecks .pskMod s) = none → Holds s.mem (s.arg 0) syms →
      (∀ i < s.arg 3, syms.length = i + 1 → (∀ j < i, (syms.getD j 0).toNat < s.act.m) →
        s.act.m ≤ (syms.getD i 0).toNat →
        exec .pskMod s = .next (s.failed .symbolRange i)) ∧
      (syms.length = s.arg 3 → (∀ w ∈ syms, w.toNat < s.act.m) →
        exec .pskMod s = .next
          { s with
            mem := applyWrites s.mem
              [(s.arg 1, syms.map fun (w : Word) => (pointOf s.act.m w.toNat).re),
                (s.arg 2, syms.map fun (w : Word) => (pointOf s.act.m w.toNat).im)] }.done))

/-- R205: PSK_DEMOD ends in the error of its first failing check, or writes the decision of every value. -/
def Obligations.PskDemodulate : Prop :=
  decode 0x00000051 = .command .pskDemod ∧
  ∀ (s : State) (xs ys : List F32),
    (∀ code info, firstFailure (commandChecks .pskDemod s) = some (code, info) →
      exec .pskDemod s = .next (s.failed code info)) ∧
    (firstFailure (commandChecks .pskDemod s) = none →
      xs.length = s.arg 3 → ys.length = s.arg 3 → Holds s.mem (s.arg 0) xs → Holds s.mem (s.arg 1) ys →
      exec .pskDemod s = .next
        { s with
          mem := writeWords s.mem (s.arg 2)
            (List.zipWith (fun x y => BitVec.ofNat 32 (decideSymbol s.act.m x y)) xs ys) }.done)

/-- R206: PSK_DEMOD of the points that PSK_MOD wrote gives the symbols back, wherever its output goes, if the two
point regions do not overlap. -/
def Obligations.PskRoundTrip : Prop :=
  ∀ (s t u : State) (syms : List Word), Inv s → s.cfgValid = true →
    syms.length = s.arg 3 → Holds s.mem (s.arg 0) syms → (∀ w ∈ syms, w.toNat < s.act.m) →
    firstFailure (commandChecks .pskMod s) = none →
    (s.arg 1 + s.arg 3 ≤ s.arg 2 ∨ s.arg 2 + s.arg 3 ≤ s.arg 1) →
    exec .pskMod s = .next t →
    u.mem = t.mem → u.hw = t.hw → u.act = t.act → u.cfgValid = t.cfgValid →
    u.arg 0 = s.arg 1 → u.arg 1 = s.arg 2 → u.arg 3 = s.arg 3 → u.regionOk 2 (s.arg 3) →
    ∃ v, exec .pskDemod u = .next v ∧ v.errCode = .ok ∧ Holds v.mem (u.arg 2) syms

/-! ### Bitstream (spec/46_bitstream.md) -/

/-- R215, R216, R217: BIT_PACK ends in the error of its first failing check, or writes T symbols: symbol t holds
stream bits t·n … t·n + n - 1, least significant first, of the bytes of T, Lb (little-endian) and the payload, with
0 past the end; RES0 = T, and T is ceil(bits / n) rounded up to a multiple of k. -/
def Obligations.BitPack : Prop :=
  decode 0x00000060 = .command .bitPack ∧
  ∀ (s : State) (payload : List Byte),
    let len := s.arg 1
    let n := s.arg 3
    let k := s.arg 4
    let count := packedCount n k len
    let le32 := fun v : Nat => (List.range 4).map fun i => BitVec.ofNat 8 (v / 256 ^ i)
    let bytes : List Byte := le32 count ++ le32 len ++ payload
    let bit := fun x : Nat => (bytes.getD (x / 8) 0).getLsbD (x % 8)
    (1 ≤ n → 1 ≤ k → (count : Int) = ⌈(⌈(8 * (8 + len) : ℚ) / n⌉ : ℚ) / k⌉ * k) ∧
    (∀ code info, firstFailure (commandChecks .bitPack s) = some (code, info) →
      exec .bitPack s = .next (s.failed code info)) ∧
    (firstFailure (commandChecks .bitPack s) = none →
      payload.length = len →
      (∀ j < len, readByte s.mem (0x00100000 + 4 * s.arg 0 + j) = payload[j]?) →
      (∀ j < (len + 3) / 4, readWord s.mem (s.arg 0 + j) ≠ none) →
      ∃ syms : List Word, syms.length = count ∧
        (∀ t < count, syms[t]? =
          some (BitVec.ofNat 32 (∑ i ∈ Finset.range n, if bit (t * n + i) then 2 ^ i else 0))) ∧
        exec .bitPack s = .next
          { s with
            mem := writeWords s.mem (s.arg 2) syms
            res := s.res.set 0 (BitVec.ofNat 32 count) }.done)

/-- R218: BIT_UNPACK ends in the error of its first failing check; at the first symbol not below 2^n in
SYMBOL_RANGE; with a header that is short, declares another symbol count or more bytes than there are, in
FRAME_DECODE_MISMATCH 1, 2 or 3; with too small a capacity in CAPACITY; with a bad output region in ADDR_RANGE 2.
Otherwise it writes the declared bytes, pad bytes 0, and RES0 = their number. -/
def Obligations.BitUnpack : Prop :=
  decode 0x00000061 = .command .bitUnpack ∧
  ∀ (s : State) (syms : List Word),
    let count := s.arg 1
    let n := s.arg 3
    let bit := fun x : Nat => (syms.getD (x / n) 0).getLsbD (x % n)
    let byte := fun j : Nat => ∑ i ∈ Finset.range 8, if bit (8 * j + i) then 2 ^ i else 0
    let recovered := count * n / 8
    let declared := ∑ i ∈ Finset.range 4, byte i * 256 ^ i
    let len := ∑ i ∈ Finset.range 4, byte (4 + i) * 256 ^ i
    let dataChecks : List (Bool × ErrCode × Nat) :=
      [(decide (8 ≤ recovered), .frameDecodeMismatch, 1),
        (decide (declared = count), .frameDecodeMismatch, 2),
        (decide (len ≤ recovered - 8), .frameDecodeMismatch, 3),
        (decide (len ≤ s.arg 5), .capacity, len),
        s.regionCheck 2 ((len + 3) / 4)]
    (∀ code info, firstFailure (commandChecks .bitUnpack s) = some (code, info) →
      exec .bitUnpack s = .next (s.failed code info)) ∧
    (firstFailure (commandChecks .bitUnpack s) = none → syms.length = count → Holds s.mem (s.arg 0) syms →
      (∀ t < count, (∀ j < t, (syms.getD j 0).toNat < 2 ^ n) → 2 ^ n ≤ (syms.getD t 0).toNat →
        exec .bitUnpack s = .next (s.failed .symbolRange t)) ∧
      ((∀ w ∈ syms, w.toNat < 2 ^ n) →
        (∀ code info, firstFailure dataChecks = some (code, info) →
          exec .bitUnpack s = .next (s.failed code info)) ∧
        (firstFailure dataChecks = none →
          ∃ out : List Word, out.length = (len + 3) / 4 ∧
            (∀ j < 4 * out.length,
              ((out.getD (j / 4) 0).extractLsb' (8 * (j % 4)) 8).toNat =
                if j < len then byte (8 + j) else 0) ∧
            exec .bitUnpack s = .next
              { s with
                mem := writeWords s.mem (s.arg 2) out
                res := s.res.set 0 (BitVec.ofNat 32 len) }.done)))

/-- R219: BIT_UNPACK with the same n and k, applied to the T symbols that BIT_PACK wrote, succeeds and gives the
payload back, if its capacity and region checks pass. -/
def Obligations.BitRoundTrip : Prop :=
  ∀ (s t u : State) (payload : List Byte), s.hw.legal = true →
    firstFailure (commandChecks .bitPack s) = none →
    payload.length = s.arg 1 →
    (∀ j < s.arg 1, readByte s.mem (0x00100000 + 4 * s.arg 0 + j) = payload[j]?) →
    exec .bitPack s = .next t →
    u.mem = t.mem → u.hw = t.hw →
    u.arg 0 = s.arg 2 → u.arg 1 = t.res[0].toNat → u.arg 3 = s.arg 3 → u.arg 4 = s.arg 4 →
    s.arg 1 ≤ u.arg 5 → u.regionOk 2 ((s.arg 1 + 3) / 4) →
    ∃ v, exec .bitUnpack u = .next v ∧ v.errCode = .ok ∧ v.res[0].toNat = s.arg 1 ∧
      ∀ j < s.arg 1, readByte v.mem (0x00100000 + 4 * u.arg 2 + j) = payload[j]?

/-! ### Binary32 (spec/00_scope.md) -/

/-- R12: the four operations on finite values give the exact result rounded once, to nearest with ties to even;
division by a zero is left to IEEE 754's special values (log 10). RN32 of an exact rational is the nearest value,
ties to even, and of an exact zero +0; F(n) is exact for n up to 2^24. -/
def Obligations.FloatRoundsToNearest : Prop :=
  (∀ a b : F32, IsFinite a → IsFinite b →
    RoundedTo (ratOf a + ratOf b) (fadd a b) ∧
    RoundedTo (ratOf a - ratOf b) (fsub a b) ∧
    RoundedTo (ratOf a * ratOf b) (fmul a b) ∧
    (ratOf b ≠ 0 → RoundedTo (ratOf a / ratOf b) (fdiv a b))) ∧
  (∀ (sign : Bool) (num den : Nat), 0 < den →
    RoundedTo ((if sign = true then -1 else 1) * ((num : ℚ) / den)) (rn32 sign num den) ∧
    rn32 sign 0 den = 0x00000000) ∧
  (∀ n ≤ 2 ^ 24, IsFinite (fOfNat n) ∧ ratOf (fOfNat n) = n ∧ signBit (fOfNat n) = false)

/-- R12, D10: every NaN result of an operation is the canonical NaN, a NaN operand gives it, and the comparisons
are false of a NaN and take +0 and -0 as equal; fneg flips the sign bit and fabs clears it. The special values of
IEEE 754, as log 10 (PRESUMED) takes them: infinities as operands of the operations and the comparisons, division by
a zero, which pairs give NaN, the sign of a zero sum, and the sign of a product or a quotient. -/
def Obligations.CanonicalNaN : Prop :=
  (∀ a b : F32,
    (isNaN (fadd a b) = true → fadd a b = 0x7FC00000) ∧
    (isNaN (fsub a b) = true → fsub a b = 0x7FC00000) ∧
    (isNaN (fmul a b) = true → fmul a b = 0x7FC00000) ∧
    (isNaN (fdiv a b) = true → fdiv a b = 0x7FC00000)) ∧
  (∀ a b : F32, isNaN a = true ∨ isNaN b = true →
    fadd a b = 0x7FC00000 ∧ fsub a b = 0x7FC00000 ∧ fmul a b = 0x7FC00000 ∧ fdiv a b = 0x7FC00000 ∧
    fgt a b = false ∧ fge a b = false ∧ feq a b = false) ∧
  (∀ a b : F32, IsFinite a → IsFinite b →
    (fgt a b = true ↔ ratOf b < ratOf a) ∧ (fge a b = true ↔ ratOf b ≤ ratOf a) ∧
      (feq a b = true ↔ ratOf a = ratOf b)) ∧
  (∀ (a b : F32) (i : Nat),
    (isNaN a = true ↔ 0x7F800000 < a.toNat % 2 ^ 31) ∧
    (fneg a).getLsbD i = (if i = 31 then !a.getLsbD 31 else a.getLsbD i) ∧
    (fabs a).getLsbD i = (if i = 31 then false else a.getLsbD i) ∧
    fsub a b = fadd a (fneg b)) ∧
  (∀ (p q : Bool) (b : F32), IsFinite b →
    let inf := fun negative : Bool => if negative = true then (0xFF800000 : F32) else 0x7F800000
    fadd (inf p) (inf q) = (if p = q then inf p else 0x7FC00000) ∧
    fmul (inf p) (inf q) = inf (p ^^ q) ∧
    fdiv (inf p) (inf q) = 0x7FC00000 ∧
    fgt (inf p) (inf q) = (!p && q) ∧ fge (inf p) (inf q) = (!p || q) ∧ feq (inf p) (inf q) = (p == q) ∧
    fadd (inf p) b = inf p ∧ fadd b (inf p) = inf p ∧
    fmul (inf p) b = (if ratOf b = 0 then 0x7FC00000 else inf (p ^^ signBit b)) ∧
    fmul b (inf p) = (if ratOf b = 0 then 0x7FC00000 else inf (p ^^ signBit b)) ∧
    fdiv (inf p) b = inf (p ^^ signBit b) ∧
    fdiv b (inf p) = (if (p ^^ signBit b) = true then 0x80000000 else 0x00000000) ∧
    fgt (inf p) b = !p ∧ fge (inf p) b = !p ∧ feq (inf p) b = false ∧
    fgt b (inf p) = p ∧ fge b (inf p) = p ∧ feq b (inf p) = false ∧
    ∀ a : F32, IsFinite a →
      (ratOf b = 0 → fdiv a b = if ratOf a = 0 then 0x7FC00000 else inf (signBit a ^^ signBit b)) ∧
      (ratOf b ≠ 0 → signBit (fdiv a b) = (signBit a ^^ signBit b)) ∧
      signBit (fmul a b) = (signBit a ^^ signBit b) ∧
      (ratOf a + ratOf b = 0 →
        fadd a b = if (signBit a && signBit b) = true then 0x80000000 else 0x00000000))

/-! ### Invariants -/

/-- Every step keeps the consistency of the state: DMEM in canonical form, inside its window and in whole words;
an active configuration that CFG_APPLY could have set; a synchronizer that pushes could have reached. -/
def Obligations.InvariantKeptByStep : Prop :=
  ∀ s s' : State, Inv s → step s = .next s' → Inv s'

/-- The state after power-on is consistent, for every legal instance, and so is the model's reset. -/
def Obligations.InvariantAtReset : Prop :=
  (∀ hw : HwParams, hw.legal = true → Inv (State.powerOn hw)) ∧ Inv State.reset
end

