-- ==== Sys2Proof/Laws/Memory.lean ====
section
/-!
SUPPORT. DMEM: a read after a write, what a write leaves alone, and the consistency of memory, for each memory
operation. None of the reading laws needs a premise on the memory.
-/

namespace Sys2Proof.Machine

/-! ### Bytes -/

theorem readByte_writeByte (m : Memory) (a b : Nat) (v : Byte) :
    readByte (writeByte m a v) b = if b = a then some v else readByte m b := by
  induction m with
  | nil => simp [writeByte, readByte]
  | cons c rest ih =>
    obtain ⟨x, w⟩ := c
    simp only [writeByte]
    split
    · simp only [readByte]
    · split
      · rename_i h
        subst h
        simp only [readByte]
        split <;> rfl
      · simp only [readByte, ih]
        split
        · rename_i hb
          subst hb
          simp [show ¬(b = a) by omega]
        · rfl

/-- The first address of a memory that has one. -/
theorem Memory.wf_cons (a : Nat) (v : Byte) (m : Memory) :
    Memory.wf ((a, v) :: m) = true ↔ (∀ c ∈ m.head?, a < c.1) ∧ Memory.wf m = true := by
  cases m with
  | nil => simp [Memory.wf]
  | cons c rest => simp [Memory.wf]

theorem head_writeByte (m : Memory) (a : Nat) (v : Byte) (b : Nat) (hb : b < a)
    (h : ∀ c ∈ m.head?, b < c.1) : ∀ c ∈ (writeByte m a v).head?, b < c.1 := by
  cases m with
  | nil => simpa [writeByte] using hb
  | cons c rest =>
    obtain ⟨x, w⟩ := c
    simp only [writeByte]
    split
    · simpa using hb
    · split
      · simpa using hb
      · simpa using h

theorem writeByte_wf (m : Memory) (a : Nat) (v : Byte) (h : Memory.wf m = true) :
    Memory.wf (writeByte m a v) = true := by
  induction m with
  | nil => rfl
  | cons c rest ih =>
    obtain ⟨x, w⟩ := c
    have hc := (Memory.wf_cons x w rest).mp h
    simp only [writeByte]
    split
    · exact (Memory.wf_cons a v _).mpr ⟨by simpa, h⟩
    · split
      · rename_i hax
        subst hax
        exact (Memory.wf_cons a v rest).mpr hc
      · refine (Memory.wf_cons x w _).mpr ⟨head_writeByte rest a v x (by omega) hc.1, ih hc.2⟩

/-! ### Lanes -/

theorem lane_toNat (w : Word) (i : Nat) : (lane w i).toNat = w.toNat / 2 ^ (8 * i) % 2 ^ 8 := by
  simp [lane, Nat.shiftRight_eq_div_pow]

theorem wordOf_toNat (b0 b1 b2 b3 : Byte) :
    (wordOf b0 b1 b2 b3).toNat =
      b0.toNat + 2 ^ 8 * (b1.toNat + 2 ^ 8 * (b2.toNat + 2 ^ 8 * b3.toNat)) := by
  have h : wordOf b0 b1 b2 b3 = ((b3 ++ b2 : BitVec 16) ++ b1 : BitVec 24) ++ b0 := rfl
  have e : (wordOf b0 b1 b2 b3).toNat = (((b3 ++ b2 : BitVec 16) ++ b1 : BitVec 24) ++ b0).toNat :=
    congrArg BitVec.toNat h
  rw [e]
  have a1 := BitVec.toNat_append (((b3 ++ b2 : BitVec 16) ++ b1 : BitVec 24)) b0
  have a2 := BitVec.toNat_append ((b3 ++ b2 : BitVec 16)) b1
  have a3 := BitVec.toNat_append b3 b2
  have s0 := Nat.shiftLeft_add_eq_or_of_lt b0.isLt (((b3 ++ b2 : BitVec 16) ++ b1 : BitVec 24)).toNat
  have s1 := Nat.shiftLeft_add_eq_or_of_lt b1.isLt ((b3 ++ b2 : BitVec 16)).toNat
  have s2 := Nat.shiftLeft_add_eq_or_of_lt b2.isLt b3.toNat
  rw [Nat.shiftLeft_eq] at s0 s1 s2
  rw [Nat.shiftLeft_eq] at a1 a2 a3
  omega

theorem wordOf_lane (w : Word) : wordOf (lane w 0) (lane w 1) (lane w 2) (lane w 3) = w := by
  apply BitVec.eq_of_toNat_eq
  simp only [wordOf_toNat, lane_toNat]
  have := w.isLt
  omega

theorem lane_wordOf (b0 b1 b2 b3 : Byte) :
    lane (wordOf b0 b1 b2 b3) 0 = b0 ∧ lane (wordOf b0 b1 b2 b3) 1 = b1 ∧
      lane (wordOf b0 b1 b2 b3) 2 = b2 ∧ lane (wordOf b0 b1 b2 b3) 3 = b3 := by
  have := b0.isLt
  have := b1.isLt
  have := b2.isLt
  have := b3.isLt
  refine ⟨?_, ?_, ?_, ?_⟩ <;>
  · apply BitVec.eq_of_toNat_eq
    rw [lane_toNat, wordOf_toNat]
    omega

/-! ### Words -/

/-- The reads after a write of one word: the four lanes of that word, and nothing else changed. -/
theorem readByte_writeWord (m : Memory) (index a : Nat) (w : Word) :
    readByte (writeWord m index w) a =
      if byteAddr index 0 ≤ a ∧ a < byteAddr (index + 1) 0 then
        some (lane w (a - byteAddr index 0))
      else readByte m a := by
  have e1 : byteAddr index 1 = byteAddr index 0 + 1 := rfl
  have e2 : byteAddr index 2 = byteAddr index 0 + 2 := rfl
  have e3 : byteAddr index 3 = byteAddr index 0 + 3 := rfl
  have e4 : byteAddr (index + 1) 0 = byteAddr index 0 + 4 := by
    unfold byteAddr
    omega
  simp only [writeWord, readByte_writeByte, e1, e2, e3, e4]
  generalize byteAddr index 0 = b
  by_cases h : b ≤ a ∧ a < b + 4
  · rw [if_pos h]
    obtain ⟨l, hl⟩ : ∃ l, a = b + l := ⟨a - b, by omega⟩
    subst hl
    have : l = 0 ∨ l = 1 ∨ l = 2 ∨ l = 3 := by omega
    rcases this with rfl | rfl | rfl | rfl <;> simp
  · rw [if_neg h]
    simp only [show ¬(a = b + 3) by omega, show ¬(a = b + 2) by omega, show ¬(a = b + 1) by omega,
      show ¬(a = b) by omega, if_false]

theorem readByte_writeWord_lane (m : Memory) (index i : Nat) (w : Word) (hi : i < 4) :
    readByte (writeWord m index w) (byteAddr index i) = some (lane w i) := by
  rw [readByte_writeWord, if_pos (by simp only [byteAddr]; omega)]
  congr 2
  simp only [byteAddr]
  omega

theorem readByte_writeWord_other (m : Memory) (index a : Nat) (w : Word)
    (h : a < byteAddr index 0 ∨ byteAddr (index + 1) 0 ≤ a) :
    readByte (writeWord m index w) a = readByte m a := by
  rw [readByte_writeWord, if_neg (by omega)]

theorem readWord_congr (m m' : Memory) (index : Nat)
    (h : ∀ i, i < 4 → readByte m (byteAddr index i) = readByte m' (byteAddr index i)) :
    readWord m index = readWord m' index := by
  simp only [readWord, h 0 (by omega), h 1 (by omega), h 2 (by omega), h 3 (by omega)]

/-- A read of a word after a write of one. -/
theorem readWord_writeWord (m : Memory) (i j : Nat) (w : Word) :
    readWord (writeWord m i w) j = if j = i then some w else readWord m j := by
  split
  · rename_i h
    subst h
    simp only [readWord, readByte_writeWord_lane m j _ w (show 0 < 4 by omega),
      readByte_writeWord_lane m j _ w (show 1 < 4 by omega),
      readByte_writeWord_lane m j _ w (show 2 < 4 by omega),
      readByte_writeWord_lane m j _ w (show 3 < 4 by omega), wordOf_lane]
  · refine readWord_congr _ _ _ fun l hl => readByte_writeWord_other m i _ w ?_
    simp only [byteAddr]
    omega

/-! ### Regions -/

/-- A write of a region leaves every byte outside it alone. -/
theorem readByte_writeWords_other (m : Memory) (index a : Nat) (ws : List Word)
    (h : a < byteAddr index 0 ∨ byteAddr (index + ws.length) 0 ≤ a) :
    readByte (writeWords m index ws) a = readByte m a := by
  induction ws generalizing m index with
  | nil => rfl
  | cons w rest ih =>
    simp only [writeWords]
    rw [ih, readByte_writeWord_other]
    · simp only [List.length_cons, byteAddr] at *
      omega
    · simp only [List.length_cons, byteAddr] at *
      omega

theorem readWord_writeWords_other (m : Memory) (index j : Nat) (ws : List Word)
    (h : j < index ∨ index + ws.length ≤ j) :
    readWord (writeWords m index ws) j = readWord m j := by
  refine readWord_congr _ _ _ fun l hl => readByte_writeWords_other m index _ ws ?_
  simp only [byteAddr]
  omega

/-- A read inside a region just written gives the word written there. -/
theorem readWord_writeWords_inside (m : Memory) (index j : Nat) (ws : List Word) (h : j < ws.length) :
    readWord (writeWords m index ws) (index + j) = some ws[j] := by
  induction ws generalizing m index j with
  | nil => simp at h
  | cons w rest ih =>
    simp only [writeWords]
    cases j with
    | zero =>
      rw [readWord_writeWords_other _ _ _ _ (by omega), readWord_writeWord]
      simp
    | succ j =>
      have := ih (writeWord m index w) (index + 1) j (by simpa using h)
      rw [show index + (j + 1) = index + 1 + j by omega, this]
      simp

/-- A read of a word after a write of a region. -/
theorem readWord_writeWords (m : Memory) (index j : Nat) (ws : List Word) :
    readWord (writeWords m index ws) j =
      if index ≤ j ∧ j < index + ws.length then ws[j - index]? else readWord m j := by
  split
  · rename_i h
    have := readWord_writeWords_inside m index (j - index) ws (by omega)
    rw [show index + (j - index) = j by omega] at this
    rw [this, List.getElem?_eq_getElem (by omega)]
  · exact readWord_writeWords_other m index j ws (by omega)

/-- `MemRead` answers the n words of the region, each of which holds a value. -/
theorem memRead_ok_iff (m : Memory) (index n : Nat) (ws : List Word) :
    memRead m index n = .ok ws ↔
      ws.length = n ∧ ∀ j, j < n → readWord m (index + j) = ws[j]? := by
  induction n generalizing index ws with
  | zero => cases ws <;> simp [memRead]
  | succ n ih =>
    simp only [memRead]
    cases hw : readWord m index with
    | none =>
      simp only [reduceCtorEq, false_iff]
      rintro ⟨hl, hall⟩
      have := hall 0 (by omega)
      rw [Nat.add_zero, hw, List.getElem?_eq_getElem (by omega)] at this
      cases this
    | some w =>
      cases hr : memRead m (index + 1) n with
      | error e =>
        simp only [reduceCtorEq, false_iff]
        rintro ⟨hl, hall⟩
        have htl := (ih (index + 1) ws.tail).mpr ⟨by simp [hl], fun j hj => by
          have := hall (j + 1) (by omega)
          rw [show index + 1 + j = index + (j + 1) by omega, this]
          simp⟩
        rw [hr] at htl
        cases htl
      | ok rest =>
        have hrest := (ih (index + 1) rest).mp hr
        simp only [Except.ok.injEq]
        constructor
        · rintro rfl
          refine ⟨by simp [hrest.1], fun j hj => ?_⟩
          cases j with
          | zero => simpa using hw
          | succ j =>
            rw [show index + (j + 1) = index + 1 + j by omega, hrest.2 j (by omega)]
            simp
        · rintro ⟨hl, hall⟩
          apply List.ext_getElem?
          intro j
          cases j with
          | zero =>
            have := hall 0 (by omega)
            rw [Nat.add_zero, hw] at this
            simpa using this
          | succ j =>
            by_cases hj : j < n
            · have h1 := hall (j + 1) (by omega)
              have h2 := hrest.2 j hj
              rw [show index + (j + 1) = index + 1 + j by omega] at h1
              rw [h1] at h2
              simpa using h2.symm
            · simp [hrest.1, hl, show n ≤ j by omega]

theorem memRead_length (m : Memory) (index n : Nat) (ws : List Word) (h : memRead m index n = .ok ws) :
    ws.length = n := ((memRead_ok_iff m index n ws).mp h).1

/-- `MemRead` never raises an error of the command: it only faults, on a word of the region without a value. -/
theorem memRead_error (m : Memory) (index n : Nat) (e : Stop) (h : memRead m index n = .error e) :
    ∃ j, j < n ∧ readWord m (index + j) = none ∧ e = .fault (.unwrittenDmem (index + j)) := by
  induction n generalizing index with
  | zero => simp [memRead] at h
  | succ n ih =>
    simp only [memRead] at h
    cases hw : readWord m index with
    | none =>
      rw [hw] at h
      exact ⟨0, by omega, hw, by simpa using h.symm⟩
    | some w =>
      rw [hw] at h
      cases hr : memRead m (index + 1) n with
      | error e' =>
        rw [hr] at h
        obtain ⟨j, hj, hn, he⟩ := ih (index + 1) (by rw [hr]; exact h)
        exact ⟨j + 1, by omega, by rw [← hn]; congr 1; omega, by rw [he]; congr 2; omega⟩
      | ok rest =>
        rw [hr] at h
        cases h

/-! ### Consistency -/

/-- One word written into the window keeps memory consistent. -/
theorem writeWord_memOk (dmemWords : Nat) (m : Memory) (index : Nat) (w : Word)
    (h : MemOk dmemWords m) (hi : index < dmemWords) : MemOk dmemWords (writeWord m index w) where
  wf := writeByte_wf _ _ _ (writeByte_wf _ _ _ (writeByte_wf _ _ _ (writeByte_wf _ _ _ h.wf)))
  inWindow := by
    intro a ha
    rw [readByte_writeWord] at ha
    split at ha
    · simp only [byteAddr] at *
      omega
    · exact h.inWindow a ha
  whole := by
    intro j l hl
    by_cases hj : j = index
    · subst hj
      simp [readByte_writeWord_lane m j l w hl, readByte_writeWord_lane m j 0 w (by omega)]
    · rw [readByte_writeWord_other m index _ w (by simp only [byteAddr]; omega),
        readByte_writeWord_other m index _ w (by simp only [byteAddr]; omega)]
      exact h.whole j l hl

theorem writeWords_memOk (dmemWords : Nat) (m : Memory) (index : Nat) (ws : List Word)
    (h : MemOk dmemWords m) (hv : regionValid dmemWords index ws.length = true) :
    MemOk dmemWords (writeWords m index ws) := by
  induction ws generalizing m index with
  | nil => exact h
  | cons w rest ih =>
    simp [regionValid] at hv
    refine ih _ _ (writeWord_memOk _ _ _ _ h (by omega)) ?_
    simp [regionValid]
    omega

theorem applyWrites_memOk (dmemWords : Nat) (m : Memory) (writes : List (Nat × List Word))
    (h : MemOk dmemWords m) (hv : ∀ w ∈ writes, regionValid dmemWords w.1 w.2.length = true) :
    MemOk dmemWords (applyWrites m writes) := by
  induction writes generalizing m with
  | nil => exact h
  | cons w rest ih =>
    obtain ⟨i, ws⟩ := w
    exact ih _ (writeWords_memOk _ _ _ _ h (hv (i, ws) (by simp)))
      fun w hw => hv w (List.mem_cons_of_mem _ hw)

/-- A byte outside every region written keeps its value. -/
theorem readByte_applyWrites_other (m : Memory) (writes : List (Nat × List Word)) (a : Nat)
    (h : ∀ w ∈ writes, a < byteAddr w.1 0 ∨ byteAddr (w.1 + w.2.length) 0 ≤ a) :
    readByte (applyWrites m writes) a = readByte m a := by
  induction writes generalizing m with
  | nil => rfl
  | cons w rest ih =>
    obtain ⟨i, ws⟩ := w
    simp only [applyWrites]
    rw [ih _ fun w hw => h w (List.mem_cons_of_mem _ hw),
      readByte_writeWords_other _ _ _ _ (h (i, ws) (by simp))]

theorem scrambleRegion_memOk (abort dmemWords : Nat) (m : Memory) (index count : Nat)
    (h : MemOk dmemWords m) : MemOk dmemWords (scrambleRegion abort dmemWords m index count) := by
  induction count generalizing m index with
  | zero => exact h
  | succ count ih =>
    simp only [scrambleRegion]
    split
    · exact ih _ _ (writeWord_memOk _ _ _ _ h (by assumption))
    · exact h

theorem scramble_memOk (abort dmemWords : Nat) (m : Memory) (regions : List (Nat × Nat))
    (h : MemOk dmemWords m) : MemOk dmemWords (scramble abort dmemWords m regions) := by
  induction regions generalizing m with
  | nil => exact h
  | cons r rest ih =>
    obtain ⟨i, n⟩ := r
    exact ih _ (scrambleRegion_memOk _ _ _ _ _ h)

/-- A soft reset keeps memory consistent. -/
theorem memoryAfterReset_memOk (s : State) (h : MemOk s.hw.dmemWords s.mem) :
    MemOk s.hw.dmemWords (memoryAfterReset s) := by
  simp only [memoryAfterReset]
  split
  · exact scramble_memOk _ _ _ _ h
  · exact h

end Sys2Proof.Machine
end

