-- ==== Sys2Proof/Laws/State.lean ====
section
/-!
SUPPORT. One lemma per field of `State` and per named update, each true by unfolding the update once, so that no
later proof unfolds a record update.
-/

namespace Sys2Proof.Machine

/-! ### `State.complete` -/

@[simp] theorem State.complete_hw (s : State) (code : ErrCode) (info : Word) (ev : BitVec 5) :
    (s.complete code info ev).hw = s.hw := rfl

@[simp] theorem State.complete_args (s : State) (code : ErrCode) (info : Word) (ev : BitVec 5) :
    (s.complete code info ev).args = s.args := rfl

@[simp] theorem State.complete_res (s : State) (code : ErrCode) (info : Word) (ev : BitVec 5) :
    (s.complete code info ev).res = s.res := rfl

@[simp] theorem State.complete_cmd (s : State) (code : ErrCode) (info : Word) (ev : BitVec 5) :
    (s.complete code info ev).cmd = s.cmd := rfl

@[simp] theorem State.complete_busy (s : State) (code : ErrCode) (info : Word) (ev : BitVec 5) :
    (s.complete code info ev).busy = false := rfl

@[simp] theorem State.complete_cfgValid (s : State) (code : ErrCode) (info : Word) (ev : BitVec 5) :
    (s.complete code info ev).cfgValid = s.cfgValid := rfl

@[simp] theorem State.complete_cmdOvr (s : State) (code : ErrCode) (info : Word) (ev : BitVec 5) :
    (s.complete code info ev).cmdOvr = s.cmdOvr := rfl

@[simp] theorem State.complete_errCode (s : State) (code : ErrCode) (info : Word) (ev : BitVec 5) :
    (s.complete code info ev).errCode = code := rfl

@[simp] theorem State.complete_errInfo (s : State) (code : ErrCode) (info : Word) (ev : BitVec 5) :
    (s.complete code info ev).errInfo = info := rfl

@[simp] theorem State.complete_irqStatus (s : State) (code : ErrCode) (info : Word) (ev : BitVec 5) :
    (s.complete code info ev).irqStatus = s.irqStatus ||| completionBits code ev := rfl

@[simp] theorem State.complete_irqEnable (s : State) (code : ErrCode) (info : Word) (ev : BitVec 5) :
    (s.complete code info ev).irqEnable = s.irqEnable := rfl

@[simp] theorem State.complete_cfg (s : State) (code : ErrCode) (info : Word) (ev : BitVec 5) :
    (s.complete code info ev).cfg = s.cfg := rfl

@[simp] theorem State.complete_corrRe (s : State) (code : ErrCode) (info : Word) (ev : BitVec 5) :
    (s.complete code info ev).corrRe = s.corrRe := rfl

@[simp] theorem State.complete_corrIm (s : State) (code : ErrCode) (info : Word) (ev : BitVec 5) :
    (s.complete code info ev).corrIm = s.corrIm := rfl

@[simp] theorem State.complete_act (s : State) (code : ErrCode) (info : Word) (ev : BitVec 5) :
    (s.complete code info ev).act = s.act := rfl

@[simp] theorem State.complete_sync (s : State) (code : ErrCode) (info : Word) (ev : BitVec 5) :
    (s.complete code info ev).sync = s.sync := rfl

@[simp] theorem State.complete_latch (s : State) (code : ErrCode) (info : Word) (ev : BitVec 5) :
    (s.complete code info ev).latch = s.latch := rfl

@[simp] theorem State.complete_mem (s : State) (code : ErrCode) (info : Word) (ev : BitVec 5) :
    (s.complete code info ev).mem = s.mem := rfl

@[simp] theorem State.complete_pending (s : State) (code : ErrCode) (info : Word) (ev : BitVec 5) :
    (s.complete code info ev).pending = s.pending := rfl

@[simp] theorem State.complete_replies (s : State) (code : ErrCode) (info : Word) (ev : BitVec 5) :
    (s.complete code info ev).replies = s.replies := rfl

@[simp] theorem State.complete_aborts (s : State) (code : ErrCode) (info : Word) (ev : BitVec 5) :
    (s.complete code info ev).aborts = s.aborts := rfl

/-! ### `State.raiseError` -/

@[simp] theorem State.raiseError_hw (s : State) (code : ErrCode) (info : Word) :
    (s.raiseError code info).hw = s.hw := rfl

@[simp] theorem State.raiseError_args (s : State) (code : ErrCode) (info : Word) :
    (s.raiseError code info).args = s.args := rfl

@[simp] theorem State.raiseError_res (s : State) (code : ErrCode) (info : Word) :
    (s.raiseError code info).res = s.res := rfl

@[simp] theorem State.raiseError_cmd (s : State) (code : ErrCode) (info : Word) :
    (s.raiseError code info).cmd = s.cmd := rfl

@[simp] theorem State.raiseError_busy (s : State) (code : ErrCode) (info : Word) :
    (s.raiseError code info).busy = false := rfl

@[simp] theorem State.raiseError_cfgValid (s : State) (code : ErrCode) (info : Word) :
    (s.raiseError code info).cfgValid = s.cfgValid := rfl

@[simp] theorem State.raiseError_cmdOvr (s : State) (code : ErrCode) (info : Word) :
    (s.raiseError code info).cmdOvr = s.cmdOvr := rfl

@[simp] theorem State.raiseError_errCode (s : State) (code : ErrCode) (info : Word) :
    (s.raiseError code info).errCode = code := rfl

@[simp] theorem State.raiseError_errInfo (s : State) (code : ErrCode) (info : Word) :
    (s.raiseError code info).errInfo = info := rfl

@[simp] theorem State.raiseError_irqStatus (s : State) (code : ErrCode) (info : Word) :
    (s.raiseError code info).irqStatus = s.irqStatus ||| completionBits code 0 := rfl

@[simp] theorem State.raiseError_irqEnable (s : State) (code : ErrCode) (info : Word) :
    (s.raiseError code info).irqEnable = s.irqEnable := rfl

@[simp] theorem State.raiseError_cfg (s : State) (code : ErrCode) (info : Word) :
    (s.raiseError code info).cfg = s.cfg := rfl

@[simp] theorem State.raiseError_corrRe (s : State) (code : ErrCode) (info : Word) :
    (s.raiseError code info).corrRe = s.corrRe := rfl

@[simp] theorem State.raiseError_corrIm (s : State) (code : ErrCode) (info : Word) :
    (s.raiseError code info).corrIm = s.corrIm := rfl

@[simp] theorem State.raiseError_act (s : State) (code : ErrCode) (info : Word) :
    (s.raiseError code info).act = s.act := rfl

@[simp] theorem State.raiseError_sync (s : State) (code : ErrCode) (info : Word) :
    (s.raiseError code info).sync = s.sync := rfl

@[simp] theorem State.raiseError_latch (s : State) (code : ErrCode) (info : Word) :
    (s.raiseError code info).latch = s.latch := rfl

@[simp] theorem State.raiseError_mem (s : State) (code : ErrCode) (info : Word) :
    (s.raiseError code info).mem = s.mem := rfl

@[simp] theorem State.raiseError_pending (s : State) (code : ErrCode) (info : Word) :
    (s.raiseError code info).pending = s.pending := rfl

@[simp] theorem State.raiseError_replies (s : State) (code : ErrCode) (info : Word) :
    (s.raiseError code info).replies = s.replies := rfl

@[simp] theorem State.raiseError_aborts (s : State) (code : ErrCode) (info : Word) :
    (s.raiseError code info).aborts = s.aborts := rfl

/-! ### `State.accept` -/

@[simp] theorem State.accept_hw (s : State) (w : Word) :
    (s.accept w).hw = s.hw := rfl

@[simp] theorem State.accept_args (s : State) (w : Word) :
    (s.accept w).args = s.args := rfl

@[simp] theorem State.accept_res (s : State) (w : Word) :
    (s.accept w).res = s.res := rfl

@[simp] theorem State.accept_cmd (s : State) (w : Word) :
    (s.accept w).cmd = w := rfl

@[simp] theorem State.accept_busy (s : State) (w : Word) :
    (s.accept w).busy = true := rfl

@[simp] theorem State.accept_cfgValid (s : State) (w : Word) :
    (s.accept w).cfgValid = s.cfgValid := rfl

@[simp] theorem State.accept_cmdOvr (s : State) (w : Word) :
    (s.accept w).cmdOvr = s.cmdOvr := rfl

@[simp] theorem State.accept_errCode (s : State) (w : Word) :
    (s.accept w).errCode = s.errCode := rfl

@[simp] theorem State.accept_errInfo (s : State) (w : Word) :
    (s.accept w).errInfo = s.errInfo := rfl

@[simp] theorem State.accept_irqStatus (s : State) (w : Word) :
    (s.accept w).irqStatus = s.irqStatus := rfl

@[simp] theorem State.accept_irqEnable (s : State) (w : Word) :
    (s.accept w).irqEnable = s.irqEnable := rfl

@[simp] theorem State.accept_cfg (s : State) (w : Word) :
    (s.accept w).cfg = s.cfg := rfl

@[simp] theorem State.accept_corrRe (s : State) (w : Word) :
    (s.accept w).corrRe = s.corrRe := rfl

@[simp] theorem State.accept_corrIm (s : State) (w : Word) :
    (s.accept w).corrIm = s.corrIm := rfl

@[simp] theorem State.accept_act (s : State) (w : Word) :
    (s.accept w).act = s.act := rfl

@[simp] theorem State.accept_sync (s : State) (w : Word) :
    (s.accept w).sync = s.sync := rfl

@[simp] theorem State.accept_latch (s : State) (w : Word) :
    (s.accept w).latch = ⟨w, s.args, s.cfg, s.corrRe, s.corrIm⟩ := rfl

@[simp] theorem State.accept_mem (s : State) (w : Word) :
    (s.accept w).mem = s.mem := rfl

@[simp] theorem State.accept_pending (s : State) (w : Word) :
    (s.accept w).pending = s.pending := rfl

@[simp] theorem State.accept_replies (s : State) (w : Word) :
    (s.accept w).replies = s.replies := rfl

@[simp] theorem State.accept_aborts (s : State) (w : Word) :
    (s.accept w).aborts = s.aborts := rfl

/-! ### `State.resetSync` -/

@[simp] theorem State.resetSync_hw (s : State) :
    (s.resetSync).hw = s.hw := rfl

@[simp] theorem State.resetSync_args (s : State) :
    (s.resetSync).args = s.args := rfl

@[simp] theorem State.resetSync_res (s : State) :
    (s.resetSync).res = s.res := rfl

@[simp] theorem State.resetSync_cmd (s : State) :
    (s.resetSync).cmd = s.cmd := rfl

@[simp] theorem State.resetSync_busy (s : State) :
    (s.resetSync).busy = s.busy := rfl

@[simp] theorem State.resetSync_cfgValid (s : State) :
    (s.resetSync).cfgValid = s.cfgValid := rfl

@[simp] theorem State.resetSync_cmdOvr (s : State) :
    (s.resetSync).cmdOvr = s.cmdOvr := rfl

@[simp] theorem State.resetSync_errCode (s : State) :
    (s.resetSync).errCode = s.errCode := rfl

@[simp] theorem State.resetSync_errInfo (s : State) :
    (s.resetSync).errInfo = s.errInfo := rfl

@[simp] theorem State.resetSync_irqStatus (s : State) :
    (s.resetSync).irqStatus = s.irqStatus := rfl

@[simp] theorem State.resetSync_irqEnable (s : State) :
    (s.resetSync).irqEnable = s.irqEnable := rfl

@[simp] theorem State.resetSync_cfg (s : State) :
    (s.resetSync).cfg = s.cfg := rfl

@[simp] theorem State.resetSync_corrRe (s : State) :
    (s.resetSync).corrRe = s.corrRe := rfl

@[simp] theorem State.resetSync_corrIm (s : State) :
    (s.resetSync).corrIm = s.corrIm := rfl

@[simp] theorem State.resetSync_act (s : State) :
    (s.resetSync).act = s.act := rfl

@[simp] theorem State.resetSync_sync (s : State) :
    (s.resetSync).sync = Sync.reset := rfl

@[simp] theorem State.resetSync_latch (s : State) :
    (s.resetSync).latch = s.latch := rfl

@[simp] theorem State.resetSync_mem (s : State) :
    (s.resetSync).mem = s.mem := rfl

@[simp] theorem State.resetSync_pending (s : State) :
    (s.resetSync).pending = s.pending := rfl

@[simp] theorem State.resetSync_replies (s : State) :
    (s.resetSync).replies = s.replies := rfl

@[simp] theorem State.resetSync_aborts (s : State) :
    (s.resetSync).aborts = s.aborts := rfl

/-! ### `State.setRes` -/

@[simp] theorem State.setRes_hw (s : State) (j : Fin 4) (w : Word) :
    (s.setRes j w).hw = s.hw := rfl

@[simp] theorem State.setRes_args (s : State) (j : Fin 4) (w : Word) :
    (s.setRes j w).args = s.args := rfl

@[simp] theorem State.setRes_res (s : State) (j : Fin 4) (w : Word) :
    (s.setRes j w).res = s.res.set j w := rfl

@[simp] theorem State.setRes_cmd (s : State) (j : Fin 4) (w : Word) :
    (s.setRes j w).cmd = s.cmd := rfl

@[simp] theorem State.setRes_busy (s : State) (j : Fin 4) (w : Word) :
    (s.setRes j w).busy = s.busy := rfl

@[simp] theorem State.setRes_cfgValid (s : State) (j : Fin 4) (w : Word) :
    (s.setRes j w).cfgValid = s.cfgValid := rfl

@[simp] theorem State.setRes_cmdOvr (s : State) (j : Fin 4) (w : Word) :
    (s.setRes j w).cmdOvr = s.cmdOvr := rfl

@[simp] theorem State.setRes_errCode (s : State) (j : Fin 4) (w : Word) :
    (s.setRes j w).errCode = s.errCode := rfl

@[simp] theorem State.setRes_errInfo (s : State) (j : Fin 4) (w : Word) :
    (s.setRes j w).errInfo = s.errInfo := rfl

@[simp] theorem State.setRes_irqStatus (s : State) (j : Fin 4) (w : Word) :
    (s.setRes j w).irqStatus = s.irqStatus := rfl

@[simp] theorem State.setRes_irqEnable (s : State) (j : Fin 4) (w : Word) :
    (s.setRes j w).irqEnable = s.irqEnable := rfl

@[simp] theorem State.setRes_cfg (s : State) (j : Fin 4) (w : Word) :
    (s.setRes j w).cfg = s.cfg := rfl

@[simp] theorem State.setRes_corrRe (s : State) (j : Fin 4) (w : Word) :
    (s.setRes j w).corrRe = s.corrRe := rfl

@[simp] theorem State.setRes_corrIm (s : State) (j : Fin 4) (w : Word) :
    (s.setRes j w).corrIm = s.corrIm := rfl

@[simp] theorem State.setRes_act (s : State) (j : Fin 4) (w : Word) :
    (s.setRes j w).act = s.act := rfl

@[simp] theorem State.setRes_sync (s : State) (j : Fin 4) (w : Word) :
    (s.setRes j w).sync = s.sync := rfl

@[simp] theorem State.setRes_latch (s : State) (j : Fin 4) (w : Word) :
    (s.setRes j w).latch = s.latch := rfl

@[simp] theorem State.setRes_mem (s : State) (j : Fin 4) (w : Word) :
    (s.setRes j w).mem = s.mem := rfl

@[simp] theorem State.setRes_pending (s : State) (j : Fin 4) (w : Word) :
    (s.setRes j w).pending = s.pending := rfl

@[simp] theorem State.setRes_replies (s : State) (j : Fin 4) (w : Word) :
    (s.setRes j w).replies = s.replies := rfl

@[simp] theorem State.setRes_aborts (s : State) (j : Fin 4) (w : Word) :
    (s.setRes j w).aborts = s.aborts := rfl

/-! ### `State.reply` -/

@[simp] theorem State.reply_hw (s : State) (r : Reply) :
    (s.reply r).hw = s.hw := rfl

@[simp] theorem State.reply_args (s : State) (r : Reply) :
    (s.reply r).args = s.args := rfl

@[simp] theorem State.reply_res (s : State) (r : Reply) :
    (s.reply r).res = s.res := rfl

@[simp] theorem State.reply_cmd (s : State) (r : Reply) :
    (s.reply r).cmd = s.cmd := rfl

@[simp] theorem State.reply_busy (s : State) (r : Reply) :
    (s.reply r).busy = s.busy := rfl

@[simp] theorem State.reply_cfgValid (s : State) (r : Reply) :
    (s.reply r).cfgValid = s.cfgValid := rfl

@[simp] theorem State.reply_cmdOvr (s : State) (r : Reply) :
    (s.reply r).cmdOvr = s.cmdOvr := rfl

@[simp] theorem State.reply_errCode (s : State) (r : Reply) :
    (s.reply r).errCode = s.errCode := rfl

@[simp] theorem State.reply_errInfo (s : State) (r : Reply) :
    (s.reply r).errInfo = s.errInfo := rfl

@[simp] theorem State.reply_irqStatus (s : State) (r : Reply) :
    (s.reply r).irqStatus = s.irqStatus := rfl

@[simp] theorem State.reply_irqEnable (s : State) (r : Reply) :
    (s.reply r).irqEnable = s.irqEnable := rfl

@[simp] theorem State.reply_cfg (s : State) (r : Reply) :
    (s.reply r).cfg = s.cfg := rfl

@[simp] theorem State.reply_corrRe (s : State) (r : Reply) :
    (s.reply r).corrRe = s.corrRe := rfl

@[simp] theorem State.reply_corrIm (s : State) (r : Reply) :
    (s.reply r).corrIm = s.corrIm := rfl

@[simp] theorem State.reply_act (s : State) (r : Reply) :
    (s.reply r).act = s.act := rfl

@[simp] theorem State.reply_sync (s : State) (r : Reply) :
    (s.reply r).sync = s.sync := rfl

@[simp] theorem State.reply_latch (s : State) (r : Reply) :
    (s.reply r).latch = s.latch := rfl

@[simp] theorem State.reply_mem (s : State) (r : Reply) :
    (s.reply r).mem = s.mem := rfl

@[simp] theorem State.reply_pending (s : State) (r : Reply) :
    (s.reply r).pending = s.pending := rfl

@[simp] theorem State.reply_replies (s : State) (r : Reply) :
    (s.reply r).replies = r :: s.replies := rfl

@[simp] theorem State.reply_aborts (s : State) (r : Reply) :
    (s.reply r).aborts = s.aborts := rfl

/-! ### `State.setStaging` -/

@[simp] theorem State.setStaging_hw (s : State) (c : Staging) :
    (s.setStaging c).hw = s.hw := rfl

@[simp] theorem State.setStaging_args (s : State) (c : Staging) :
    (s.setStaging c).args = s.args := rfl

@[simp] theorem State.setStaging_res (s : State) (c : Staging) :
    (s.setStaging c).res = s.res := rfl

@[simp] theorem State.setStaging_cmd (s : State) (c : Staging) :
    (s.setStaging c).cmd = s.cmd := rfl

@[simp] theorem State.setStaging_busy (s : State) (c : Staging) :
    (s.setStaging c).busy = s.busy := rfl

@[simp] theorem State.setStaging_cfgValid (s : State) (c : Staging) :
    (s.setStaging c).cfgValid = s.cfgValid := rfl

@[simp] theorem State.setStaging_cmdOvr (s : State) (c : Staging) :
    (s.setStaging c).cmdOvr = s.cmdOvr := rfl

@[simp] theorem State.setStaging_errCode (s : State) (c : Staging) :
    (s.setStaging c).errCode = s.errCode := rfl

@[simp] theorem State.setStaging_errInfo (s : State) (c : Staging) :
    (s.setStaging c).errInfo = s.errInfo := rfl

@[simp] theorem State.setStaging_irqStatus (s : State) (c : Staging) :
    (s.setStaging c).irqStatus = s.irqStatus := rfl

@[simp] theorem State.setStaging_irqEnable (s : State) (c : Staging) :
    (s.setStaging c).irqEnable = s.irqEnable := rfl

@[simp] theorem State.setStaging_cfg (s : State) (c : Staging) :
    (s.setStaging c).cfg = c := rfl

@[simp] theorem State.setStaging_corrRe (s : State) (c : Staging) :
    (s.setStaging c).corrRe = s.corrRe := rfl

@[simp] theorem State.setStaging_corrIm (s : State) (c : Staging) :
    (s.setStaging c).corrIm = s.corrIm := rfl

@[simp] theorem State.setStaging_act (s : State) (c : Staging) :
    (s.setStaging c).act = s.act := rfl

@[simp] theorem State.setStaging_sync (s : State) (c : Staging) :
    (s.setStaging c).sync = s.sync := rfl

@[simp] theorem State.setStaging_latch (s : State) (c : Staging) :
    (s.setStaging c).latch = s.latch := rfl

@[simp] theorem State.setStaging_mem (s : State) (c : Staging) :
    (s.setStaging c).mem = s.mem := rfl

@[simp] theorem State.setStaging_pending (s : State) (c : Staging) :
    (s.setStaging c).pending = s.pending := rfl

@[simp] theorem State.setStaging_replies (s : State) (c : Staging) :
    (s.setStaging c).replies = s.replies := rfl

@[simp] theorem State.setStaging_aborts (s : State) (c : Staging) :
    (s.setStaging c).aborts = s.aborts := rfl

/-! ### `Effect.commit` -/

@[simp] theorem Effect.commit_hw (e : Effect) :
    (e.commit).hw = e.post.hw := rfl

@[simp] theorem Effect.commit_args (e : Effect) :
    (e.commit).args = e.post.args := rfl

@[simp] theorem Effect.commit_res (e : Effect) :
    (e.commit).res = e.post.res := rfl

@[simp] theorem Effect.commit_cmd (e : Effect) :
    (e.commit).cmd = e.post.cmd := rfl

@[simp] theorem Effect.commit_busy (e : Effect) :
    (e.commit).busy = false := rfl

@[simp] theorem Effect.commit_cfgValid (e : Effect) :
    (e.commit).cfgValid = e.post.cfgValid := rfl

@[simp] theorem Effect.commit_cmdOvr (e : Effect) :
    (e.commit).cmdOvr = e.post.cmdOvr := rfl

@[simp] theorem Effect.commit_errCode (e : Effect) :
    (e.commit).errCode = .ok := rfl

@[simp] theorem Effect.commit_errInfo (e : Effect) :
    (e.commit).errInfo = 0 := rfl

@[simp] theorem Effect.commit_irqStatus (e : Effect) :
    (e.commit).irqStatus = e.post.irqStatus ||| completionBits .ok e.eventBits := rfl

@[simp] theorem Effect.commit_irqEnable (e : Effect) :
    (e.commit).irqEnable = e.post.irqEnable := rfl

@[simp] theorem Effect.commit_cfg (e : Effect) :
    (e.commit).cfg = e.post.cfg := rfl

@[simp] theorem Effect.commit_corrRe (e : Effect) :
    (e.commit).corrRe = e.post.corrRe := rfl

@[simp] theorem Effect.commit_corrIm (e : Effect) :
    (e.commit).corrIm = e.post.corrIm := rfl

@[simp] theorem Effect.commit_act (e : Effect) :
    (e.commit).act = e.post.act := rfl

@[simp] theorem Effect.commit_sync (e : Effect) :
    (e.commit).sync = e.post.sync := rfl

@[simp] theorem Effect.commit_latch (e : Effect) :
    (e.commit).latch = e.post.latch := rfl

@[simp] theorem Effect.commit_mem (e : Effect) :
    (e.commit).mem = applyWrites e.post.mem e.writes := rfl

@[simp] theorem Effect.commit_pending (e : Effect) :
    (e.commit).pending = e.post.pending := rfl

@[simp] theorem Effect.commit_replies (e : Effect) :
    (e.commit).replies = e.post.replies := rfl

@[simp] theorem Effect.commit_aborts (e : Effect) :
    (e.commit).aborts = e.post.aborts := rfl

/-! ### `State.softReset` -/

@[simp] theorem State.softReset_hw (s : State) :
    (s.softReset).hw = s.hw := rfl

@[simp] theorem State.softReset_args (s : State) :
    (s.softReset).args = (State.powerOn s.hw).args := rfl

@[simp] theorem State.softReset_res (s : State) :
    (s.softReset).res = (State.powerOn s.hw).res := rfl

@[simp] theorem State.softReset_cmd (s : State) :
    (s.softReset).cmd = (State.powerOn s.hw).cmd := rfl

@[simp] theorem State.softReset_busy (s : State) :
    (s.softReset).busy = (State.powerOn s.hw).busy := rfl

@[simp] theorem State.softReset_cfgValid (s : State) :
    (s.softReset).cfgValid = (State.powerOn s.hw).cfgValid := rfl

@[simp] theorem State.softReset_cmdOvr (s : State) :
    (s.softReset).cmdOvr = (State.powerOn s.hw).cmdOvr := rfl

@[simp] theorem State.softReset_errCode (s : State) :
    (s.softReset).errCode = (State.powerOn s.hw).errCode := rfl

@[simp] theorem State.softReset_errInfo (s : State) :
    (s.softReset).errInfo = (State.powerOn s.hw).errInfo := rfl

@[simp] theorem State.softReset_irqStatus (s : State) :
    (s.softReset).irqStatus = (State.powerOn s.hw).irqStatus := rfl

@[simp] theorem State.softReset_irqEnable (s : State) :
    (s.softReset).irqEnable = (State.powerOn s.hw).irqEnable := rfl

@[simp] theorem State.softReset_cfg (s : State) :
    (s.softReset).cfg = (State.powerOn s.hw).cfg := rfl

@[simp] theorem State.softReset_corrRe (s : State) :
    (s.softReset).corrRe = (State.powerOn s.hw).corrRe := rfl

@[simp] theorem State.softReset_corrIm (s : State) :
    (s.softReset).corrIm = (State.powerOn s.hw).corrIm := rfl

@[simp] theorem State.softReset_act (s : State) :
    (s.softReset).act = (State.powerOn s.hw).act := rfl

@[simp] theorem State.softReset_sync (s : State) :
    (s.softReset).sync = (State.powerOn s.hw).sync := rfl

@[simp] theorem State.softReset_latch (s : State) :
    (s.softReset).latch = (State.powerOn s.hw).latch := rfl

@[simp] theorem State.softReset_mem (s : State) :
    (s.softReset).mem = memoryAfterReset s := rfl

@[simp] theorem State.softReset_pending (s : State) :
    (s.softReset).pending = s.pending := rfl

@[simp] theorem State.softReset_replies (s : State) :
    (s.softReset).replies = s.replies := rfl

@[simp] theorem State.softReset_aborts (s : State) :
    (s.softReset).aborts = if s.busy then s.aborts + 1 else s.aborts := rfl

end Sys2Proof.Machine
end

