-- ==== Sys2Proof/Laws/Ops.lean ====
section
/-!
SUPPORT. What each shared operation can do: checks, sequencing, the end of a command, and the meaning of every
command as the end of its effect.
-/

namespace Sys2Proof.Machine

/-! ### Checks in sequence -/

@[simp] theorem check_ok (holds : Bool) (code : ErrCode) (info : Nat) (u : Unit) :
    check holds code info = .ok u ↔ holds = true := by
  cases holds <;> simp [check]

@[simp] theorem check_error (holds : Bool) (code : ErrCode) (info : Nat) (e : Stop) :
    check holds code info = .error e ↔ holds = false ∧ e = .error code (BitVec.ofNat 32 info) := by
  cases holds <;> simp [check, eq_comm]

/-- A sequence succeeds when its first part does and then the rest does. -/
theorem bind_ok {α β : Type} (x : Except Stop α) (f : α → Except Stop β) (b : β) :
    (x >>= f) = .ok b ↔ ∃ a, x = .ok a ∧ f a = .ok b := by
  cases x <;> simp [bind, Except.bind]

/-- A sequence stops where its first part stops, or, if that succeeds, where the rest does. -/
theorem bind_error {α β : Type} (x : Except Stop α) (f : α → Except Stop β) (e : Stop) :
    (x >>= f) = .error e ↔ x = .error e ∨ ∃ a, x = .ok a ∧ f a = .error e := by
  cases x <;> simp [bind, Except.bind]

@[simp] theorem pure_ok {α : Type} (a b : α) : (pure a : Except Stop α) = .ok b ↔ a = b := by
  simp [pure, Except.pure]

@[simp] theorem pure_error {α : Type} (a : α) (e : Stop) : (pure a : Except Stop α) = .error e ↔ False := by
  simp [pure, Except.pure]

@[simp] theorem checkRegion_ok (s : State) (i : Fin 12) (len : Nat) (u : Unit) :
    checkRegion s i len = .ok u ↔ regionValid s.hw.dmemWords (s.arg i) len = true := check_ok ..

@[simp] theorem checkConfigured_ok (s : State) (u : Unit) :
    checkConfigured s = .ok u ↔ s.cfgValid = true := check_ok ..

/-- A sequence whose first part succeeds goes on. -/
theorem ok_bind {α β : Type} (a : α) (f : α → Except Stop β) : ((.ok a : Except Stop α) >>= f) = f a := rfl

theorem error_bind {α β : Type} (e : Stop) (f : α → Except Stop β) :
    ((.error e : Except Stop α) >>= f) = .error e := rfl

/-! ### The end of a command -/

/-- A command that answers a next state has committed its effect or raised its error. -/
theorem finish_next (s t : State) (r : Except Stop Effect) :
    finish s r = .next t ↔
      (∃ e, r = .ok e ∧ t = e.commit) ∨
        (∃ code info, r = .error (.error code info) ∧ t = s.raiseError code info) := by
  unfold finish
  split <;> simp [eq_comm]

/-- A command faults only by reading a word that holds no value. -/
theorem finish_fault (s : State) (r : Except Stop Effect) (f : Fault) :
    finish s r = .fault f ↔ r = .error (.fault f) := by
  unfold finish
  split <;> simp [eq_comm]

theorem finish_refused (s : State) (r : Except Stop Effect) (x : Refusal) :
    finish s r = .refused x ↔ False := by
  unfold finish
  split <;> simp

theorem finish_of_ok {s : State} {r : Except Stop Effect} {e : Effect} (h : r = .ok e) :
    finish s r = .next e.commit := by
  subst h
  rfl

theorem finish_of_error {s : State} {r : Except Stop Effect} {code : ErrCode} {info : Word}
    (h : r = .error (.error code info)) : finish s r = .next (s.raiseError code info) := by
  subst h
  rfl

/-- What the command would do, its error, or the unwritten word it would read. -/
def effectOf (i : Instr) (s : State) : Except Stop Effect :=
  match i with
  | .nop => effectNop s
  | .cfgApply => effectCfgApply s
  | .layoutDump => effectLayoutDump s
  | .fftFwd => effectFftFwd s
  | .fftInv => effectFftInv s
  | .cconv => effectCconv s
  | .xcorr => effectXcorr s
  | .xcorrSel => effectXcorrSel s
  | .syncPush => effectSyncPush s
  | .syncReset => effectSyncReset s
  | .ofdmEnc => effectOfdmEnc s
  | .ofdmEncImagOut => effectOfdmEncImagOut s
  | .ofdmDec => effectOfdmDec s
  | .ofdmDecImagIn => effectOfdmDecImagIn s
  | .realign => effectRealign s
  | .chEst => effectChEst s
  | .chEq => effectChEq s
  | .pskMod => effectPskMod s
  | .pskDemod => effectPskDemod s
  | .bitPack => effectBitPack s
  | .bitUnpack => effectBitUnpack s

/-- Every command ends in its effect, its error or its fault. -/
theorem exec_eq_finish (i : Instr) (s : State) : exec i s = finish s (effectOf i s) := by
  cases i <;> rfl

/-- No command is refused. -/
theorem exec_not_refused (i : Instr) (s : State) (x : Refusal) : exec i s ≠ .refused x := by
  rw [exec_eq_finish]
  exact fun h => (finish_refused s _ x).mp h

/-- A command that answers a next state has committed its effect or raised its error. -/
theorem exec_next (i : Instr) (s t : State) (h : exec i s = .next t) :
    (∃ e, effectOf i s = .ok e ∧ t = e.commit) ∨
      (∃ code info, effectOf i s = .error (.error code info) ∧ t = s.raiseError code info) := by
  rw [exec_eq_finish] at h
  exact (finish_next s t _).mp h

/-! ### The bits a completion sets -/

theorem completionBits_error (code : ErrCode) (ev : BitVec 5) (h : code ≠ .ok) :
    completionBits code ev = irqDone ||| irqErr ||| ev := by
  simp [completionBits, h]

theorem completionBits_ok (ev : BitVec 5) : completionBits .ok ev = irqDone ||| ev := by
  simp [completionBits]

end Sys2Proof.Machine
end

