-- ==== Sys2Proof/Laws/Checks.lean ====
section
/-!
SUPPORT. How the checks of a command, listed in `commandChecks`, decide its end, and what it does after they
pass: for each command, its effect is its checks in order followed by its body.
-/

namespace Sys2Proof.Machine

/-- Checks run in order. -/
def runChecks (checks : List (Bool × ErrCode × Nat)) : Except Stop Unit :=
  match checks with
  | [] => .ok ()
  | (holds, code, info) :: rest => check holds code info >>= fun _ => runChecks rest

theorem runChecks_none (checks : List (Bool × ErrCode × Nat)) (h : firstFailure checks = none) :
    runChecks checks = .ok () := by
  induction checks with
  | nil => rfl
  | cons c rest ih =>
    obtain ⟨holds, code, info⟩ := c
    cases holds <;> simp_all [firstFailure, runChecks, check, bind, Except.bind]

theorem runChecks_some (checks : List (Bool × ErrCode × Nat)) (code : ErrCode) (info : Nat)
    (h : firstFailure checks = some (code, info)) :
    runChecks checks = .error (.error code (BitVec.ofNat 32 info)) := by
  induction checks with
  | nil => simp [firstFailure] at h
  | cons c rest ih =>
    obtain ⟨holds, code', info'⟩ := c
    cases holds <;> simp_all [firstFailure, runChecks, check, bind, Except.bind]

theorem regionValid_eq (dmemWords base len : Nat) :
    regionValid dmemWords base len = decide (len = 0 ∨ base + len ≤ dmemWords) := by
  simp [regionValid, Bool.decide_or, beq_eq_decide]

theorem checkRegion_eq (s : State) (i : Fin 12) (len : Nat) :
    checkRegion s i len = check (decide (s.regionOk i len)) .addrRange i.val := by
  simp only [checkRegion, regionValid_eq, State.regionOk]

theorem except_bind_assoc {α β γ : Type} (x : Except Stop α) (f : α → Except Stop β)
    (g : β → Except Stop γ) : (x >>= f) >>= g = x >>= fun a => f a >>= g := by
  cases x <;> rfl

theorem check_decide_and (p q : Prop) [Decidable p] [Decidable q] (code : ErrCode) (info : Nat) :
    check (decide p && decide q) code info = check (decide (p ∧ q)) code info := by
  rw [Bool.decide_and]

theorem ceilDiv_four (a : Nat) : ceilDiv a 4 = (a + 3) / 4 := rfl

/-- `readArg` of a region that holds `ws`. -/
theorem memRead_of_holds (m : Memory) (base n : Nat) (ws : List Word) (hl : ws.length = n)
    (h : Holds m base ws) : memRead m base n = .ok ws := by
  subst hl
  rw [memRead_ok_iff]
  refine ⟨rfl, fun j hj => ?_⟩
  simpa using h j hj

theorem readArg_of_holds {s : State} {i : Fin 12} {n : Nat} {ws : List Word} (hl : ws.length = n)
    (h : Holds s.mem (s.arg i) ws) : readArg s i n = .ok ws := memRead_of_holds _ _ _ _ hl h

/-! ### The end of a command, from its checks and its body -/

theorem done_eq_complete (s : State) : s.done = s.complete .ok 0 0 := by
  simp [State.done, State.complete, completionBits, irqDone]

theorem failed_eq_raiseError (s : State) (code : ErrCode) (info : Nat) (h : code ≠ .ok) :
    s.failed code info = s.raiseError code (BitVec.ofNat 32 info) := by
  simp [State.failed, State.raiseError, State.complete, completionBits, irqDone, irqErr, h]

theorem firstFailure_code (checks : List (Bool × ErrCode × Nat)) (h : ∀ c ∈ checks, c.2.1 ≠ .ok)
    (code : ErrCode) (info : Nat) (hf : firstFailure checks = some (code, info)) : code ≠ .ok := by
  induction checks with
  | nil => simp [firstFailure] at hf
  | cons c rest ih =>
    obtain ⟨holds, code', info'⟩ := c
    cases holds <;> simp_all [firstFailure]

/-- Every check of a command raises an error, never the code of success. -/
theorem commandChecks_code (i : Instr) (s : State) : ∀ c ∈ commandChecks i s, c.2.1 ≠ .ok := by
  cases i <;> simp [commandChecks, cfgApplyChecks, State.configuredCheck, State.regionCheck]

/-- A command whose effect is its checks and then a body ends in the error of its first failing check. -/
theorem exec_of_failed_check (i : Instr) (s : State) (body : Unit → Except Stop Effect)
    (he : effectOf i s = runChecks (commandChecks i s) >>= body) (code : ErrCode) (info : Nat)
    (h : firstFailure (commandChecks i s) = some (code, info)) :
    exec i s = .next (s.failed code info) := by
  rw [exec_eq_finish, he, runChecks_some _ _ _ h,
    failed_eq_raiseError _ _ _ (firstFailure_code _ (commandChecks_code i s) _ _ h)]
  rfl

/-- A command whose checks pass does its body. -/
theorem exec_of_passed_checks (i : Instr) (s : State) (body : Unit → Except Stop Effect)
    (he : effectOf i s = runChecks (commandChecks i s) >>= body)
    (h : firstFailure (commandChecks i s) = none) : exec i s = finish s (body ()) := by
  rw [exec_eq_finish, he, runChecks_none _ h]
  rfl

/-! ### Each command as its checks and its body -/

/-- What LayoutDump does after its checks. -/
def layoutDumpBody (s : State) : Except Stop Effect := do
  return Effect.of s
    [(s.arg 0, s.act.pilots.map (BitVec.ofNat 32)), (s.arg 1, s.act.data.map (BitVec.ofNat 32))]

theorem effect_layoutDump (s : State) :
    effectLayoutDump s = runChecks (commandChecks .layoutDump s) >>= fun _ => layoutDumpBody s := by
  unfold effectLayoutDump
  simp only [runChecks, commandChecks, State.configuredCheck, State.regionCheck, checkRegion_eq,
    checkConfigured, except_bind_assoc, ok_bind]
  rfl

/-- What Transform does after its checks. -/
def transformBody (transform : List Cx → List Cx) (s : State) : Except Stop Effect := do
  let re ← readArg s 0 (s.arg 2)
  let im ← readArg s 1 (s.arg 2)
  let x := transform (cxZip re im)
  return Effect.of s [(s.arg 0, reals x), (s.arg 1, imags x)]

theorem effect_transform (transform : List Cx → List Cx) (s : State) :
    effectTransform transform s = runChecks (commandChecks .fftFwd s) >>= fun _ => transformBody transform s := by
  unfold effectTransform
  simp only [runChecks, commandChecks, State.regionCheck, checkRegion_eq,
    except_bind_assoc, ok_bind]
  rfl

/-- What Cconv does after its checks. -/
def cconvBody (s : State) : Except Stop Effect := do
  let xre ← readArg s 0 (s.arg 6)
  let xim ← readArg s 1 (s.arg 6)
  let yre ← readArg s 2 (s.arg 6)
  let yim ← readArg s 3 (s.arg 6)
  let out := conv (cxZip xre xim) (cxZip yre yim)
  return Effect.of s [(s.arg 4, reals out), (s.arg 5, imags out)]

theorem effect_cconv (s : State) :
    effectCconv s = runChecks (commandChecks .cconv s) >>= fun _ => cconvBody s := by
  unfold effectCconv
  simp only [runChecks, commandChecks, State.regionCheck, checkRegion_eq,
    except_bind_assoc, ok_bind]
  rfl

/-- What XcorrWith does after its checks. -/
def xcorrBody (preBase : Nat) (s : State) : Except Stop Effect := do
  let a := s.act
  let probe ← readArg s 0 (2 * a.w)
  let pre ← memRead s.mem preBase a.w
  let c := correlate a.w a.l probe pre
  return Effect.of { s with res := xcorrRes a.thresh (detect a.w c) } [(s.arg 1, c)]

theorem effect_xcorr (preBase : Nat) (s : State) :
    effectXcorrWith preBase s = runChecks (commandChecks .xcorr s) >>= fun _ => xcorrBody preBase s := by
  unfold effectXcorrWith
  simp only [runChecks, commandChecks, State.configuredCheck, State.regionCheck, checkRegion_eq,
    checkConfigured, except_bind_assoc, ok_bind]
  rfl

/-- What SyncPush does after its checks. -/
def syncPushBody (s : State) : Except Stop Effect := do
  let a := s.act
  let cur ← readArg s 0 a.w
  if s.sync.prevValid then
    let pre ← memRead s.mem (preambleBase a s.sync.mode) a.w
    let d := detect a.w (correlate a.w a.l (s.sync.prev ++ cur) pre)
    return pushEffect s (cachedWindow (pushCorrelated a s.sync d cur) cur)
  else return pushEffect s (cachedWindow (pushPriming s.sync) cur)

theorem effect_syncPush (s : State) :
    effectSyncPush s = runChecks (commandChecks .syncPush s) >>= fun _ => syncPushBody s := by
  unfold effectSyncPush
  simp only [runChecks, commandChecks, State.configuredCheck, State.regionCheck, checkRegion_eq,
    checkConfigured, except_bind_assoc, ok_bind]
  rfl

/-- What OfdmEncWith does after its checks. -/
def ofdmEncBody (imagOut : Bool) (s : State) : Except Stop Effect := do
  let a := s.act
  let count := s.arg 6
  let dre ← readArg s 0 (count * a.d)
  let dim ← readArg s 1 (count * a.d)
  let pre ← readArg s 2 (count * a.p)
  let pim ← readArg s 3 (count * a.p)
  let y := encodeSymbols a count (cxZip dre dim) (cxZip pre pim)
  return Effect.of s ((s.arg 4, reals y) :: if imagOut then [(s.arg 5, imags y)] else [])

theorem effect_ofdmEnc (s : State) :
    effectOfdmEncWith false s = runChecks (commandChecks .ofdmEnc s) >>= fun _ => ofdmEncBody false s := by
  unfold effectOfdmEncWith
  simp only [runChecks, commandChecks, State.configuredCheck, State.regionCheck, checkRegion_eq,
    checkConfigured, except_bind_assoc, ok_bind]
  rfl

theorem effect_ofdmEncImagOut (s : State) :
    effectOfdmEncWith true s = runChecks (commandChecks .ofdmEncImagOut s) >>= fun _ => ofdmEncBody true s := by
  unfold effectOfdmEncWith
  simp only [runChecks, commandChecks, State.configuredCheck, State.regionCheck, checkRegion_eq,
    checkConfigured, except_bind_assoc, ok_bind]
  rfl

/-- What OfdmDecWith does after its checks. -/
def ofdmDecBody (imagIn : Bool) (s : State) : Except Stop Effect := do
  let a := s.act
  let count := s.arg 6
  let re ← readArg s 0 (count * a.r)
  let im ← if imagIn then readArg s 1 (count * a.r) else .ok (List.replicate (count * a.r) fZero)
  let out := decodeSymbols a count (cxZip re im)
  return Effect.of s
    [(s.arg 2, reals out.1), (s.arg 3, imags out.1), (s.arg 4, reals out.2), (s.arg 5, imags out.2)]

theorem effect_ofdmDec (s : State) :
    effectOfdmDecWith false s = runChecks (commandChecks .ofdmDec s) >>= fun _ => ofdmDecBody false s := by
  unfold effectOfdmDecWith
  simp only [runChecks, commandChecks, State.configuredCheck, State.regionCheck, checkRegion_eq,
    checkConfigured, except_bind_assoc, ok_bind]
  rfl

theorem effect_ofdmDecImagIn (s : State) :
    effectOfdmDecWith true s = runChecks (commandChecks .ofdmDecImagIn s) >>= fun _ => ofdmDecBody true s := by
  unfold effectOfdmDecWith
  simp only [runChecks, commandChecks, State.configuredCheck, State.regionCheck, checkRegion_eq,
    checkConfigured, except_bind_assoc, ok_bind]
  rfl

/-- What Realign does after its checks. -/
def realignBody (s : State) : Except Stop Effect := do
  let raw ← readArg s 0 (s.arg 1)
  return Effect.of s [(s.arg 3, recentre (s.arg 2 * s.act.r) raw)]

theorem effect_realign (s : State) :
    effectRealign s = runChecks (commandChecks .realign s) >>= fun _ => realignBody s := by
  unfold effectRealign
  simp only [runChecks, commandChecks, State.configuredCheck, State.regionCheck, checkRegion_eq,
    checkConfigured, except_bind_assoc, ok_bind]
  rfl

/-- What ChEst does after its checks. -/
def chEstBody (s : State) : Except Stop Effect := do
  let n := s.arg 4
  let kre ← readArg s 0 n
  let kim ← readArg s 1 n
  let rre ← readArg s 2 n
  let rim ← readArg s 3 n
  let e := estimate (cxZip kre kim) (cxZip rre rim)
  return Effect.of { s with corrRe := e.re, corrIm := e.im } []

theorem effect_chEst (s : State) :
    effectChEst s = runChecks (commandChecks .chEst s) >>= fun _ => chEstBody s := by
  unfold effectChEst
  simp only [runChecks, commandChecks, State.regionCheck, checkRegion_eq,
    except_bind_assoc, ok_bind]
  rfl

/-- What ChEq does after its checks. -/
def chEqBody (s : State) : Except Stop Effect := do
  let n := s.arg 4
  let re ← readArg s 0 n
  let im ← readArg s 1 n
  let out := (cxZip re im).map (equalize ⟨s.latch.corrRe, s.latch.corrIm⟩)
  return Effect.of s [(s.arg 2, reals out), (s.arg 3, imags out)]

theorem effect_chEq (s : State) :
    effectChEq s = runChecks (commandChecks .chEq s) >>= fun _ => chEqBody s := by
  unfold effectChEq
  simp only [runChecks, commandChecks, State.regionCheck, checkRegion_eq,
    except_bind_assoc, ok_bind]
  rfl

/-- What PskMod does after its checks. -/
def pskModBody (s : State) : Except Stop Effect := do
  let syms ← readSymbols s.mem s.act.m (s.arg 0) 0 (s.arg 3)
  let points := syms.map fun w => pointOf s.act.m w.toNat
  return Effect.of s [(s.arg 1, reals points), (s.arg 2, imags points)]

theorem effect_pskMod (s : State) :
    effectPskMod s = runChecks (commandChecks .pskMod s) >>= fun _ => pskModBody s := by
  unfold effectPskMod
  simp only [runChecks, commandChecks, State.configuredCheck, State.regionCheck, checkRegion_eq,
    checkConfigured, except_bind_assoc, ok_bind]
  rfl

/-- What PskDemod does after its checks. -/
def pskDemodBody (s : State) : Except Stop Effect := do
  let count := s.arg 3
  let xs ← readArg s 0 count
  let ys ← readArg s 1 count
  let syms := List.zipWith (fun x y => BitVec.ofNat 32 (decideSymbol s.act.m x y)) xs ys
  return Effect.of s [(s.arg 2, syms)]

theorem effect_pskDemod (s : State) :
    effectPskDemod s = runChecks (commandChecks .pskDemod s) >>= fun _ => pskDemodBody s := by
  unfold effectPskDemod
  simp only [runChecks, commandChecks, State.configuredCheck, State.regionCheck, checkRegion_eq,
    checkConfigured, except_bind_assoc, ok_bind]
  rfl

/-- What BitPack does after its checks. -/
def bitPackBody (s : State) : Except Stop Effect := do
  let len := s.arg 1
  let n := s.arg 3
  let count := packedCount n (s.arg 4) len
  let ws ← readArg s 0 (ceilDiv len 4)
  let syms := packSymbols n count ((bytesOfWords ws).take len)
  return Effect.of (s.setRes 0 (BitVec.ofNat 32 count)) [(s.arg 2, syms)]

theorem effect_bitPack (s : State) :
    effectBitPack s = runChecks (commandChecks .bitPack s) >>= fun _ => bitPackBody s := by
  unfold effectBitPack
  simp only [runChecks, commandChecks, State.regionCheck, checkRegion_eq,
    except_bind_assoc, ok_bind, checkPacking, check_decide_and, ceilDiv_four]
  rfl

/-- What BitUnpack does after its checks. -/
def bitUnpackBody (s : State) : Except Stop Effect := do
  let count := s.arg 1
  let n := s.arg 3
  let syms ← readArg s 0 count
  checkSymbols n syms
  let bytes := bytesOfStream (count * n / 8) (streamOfSymbols n syms)
  let declared ← checkHeader count bytes
  check (decide (declared ≤ s.arg 5)) .capacity declared
  checkRegion s 2 (ceilDiv declared 4)
  let payload := (bytes.drop 8).take declared
  return Effect.of (s.setRes 0 (BitVec.ofNat 32 declared)) [(s.arg 2, wordsOfBytes payload)]

theorem effect_bitUnpack (s : State) :
    effectBitUnpack s = runChecks (commandChecks .bitUnpack s) >>= fun _ => bitUnpackBody s := by
  unfold effectBitUnpack bitUnpackBody
  simp only [runChecks, commandChecks, State.regionCheck, checkRegion_eq,
    except_bind_assoc, ok_bind, checkPacking, check_decide_and]

end Sys2Proof.Machine
end

