-- ==== Sys2Proof/Laws/Fft.lean ====
section
/-!
SUPPORT. How long the results of the transforms are, and the small facts of the length dispatch.
-/

namespace Sys2Proof.Machine

@[simp] theorem reals_length (x : List Cx) : (reals x).length = x.length := by simp [reals]

@[simp] theorem imags_length (x : List Cx) : (imags x).length = x.length := by simp [imags]

@[simp] theorem cxZip_length (re im : List F32) : (cxZip re im).length = min re.length im.length := by
  simp [cxZip]

@[simp] theorem rotations_length (seed : Cx) (count : Nat) (cur : Cx) :
    (rotations seed count cur).length = count := by
  induction count generalizing cur with
  | zero => rfl
  | succ n ih => simp [rotations, ih]

@[simp] theorem trigTable_length (count d : Nat) : (trigTable count d).length = count := by
  simp [trigTable]

/-- The recurrence of R122: each entry is the one before, rotated by the seed. -/
theorem rotations_succ (seed : Cx) (count t : Nat) (cur : Cx) (h : t + 1 < count) :
    (rotations seed count cur)[t + 1]? = ((rotations seed count cur)[t]?).map (rotate seed) := by
  induction count generalizing cur t with
  | zero => omega
  | succ n ih =>
    cases t with
    | zero =>
      cases n with
      | zero => omega
      | succ n => simp [rotations]
    | succ t => simpa [rotations] using ih t (rotate seed cur) (by omega)

@[simp] theorem butterflyBlock_length (half step base : Nat) (tw x : Array Cx) :
    (butterflyBlock half step base tw x).length = 2 * half := by
  simp [butterflyBlock]
  omega

theorem length_flatMap_of_forall {α β : Type} (l : List α) (f : α → List β) (k : Nat)
    (h : ∀ x ∈ l, (f x).length = k) : (l.flatMap f).length = l.length * k := by
  induction l with
  | nil => simp
  | cons a l ih =>
    rw [List.flatMap_cons, List.length_append, h a (by simp), ih fun x hx => h x (by simp [hx]),
      List.length_cons, Nat.add_mul]
    omega

theorem butterflyPass_size (n size : Nat) (tw x : Array Cx) (hs : size % 2 = 0) (hd : size ∣ n) :
    (butterflyPass n size tw x).size = n := by
  rw [butterflyPass, List.size_toArray, length_flatMap_of_forall _ _ size]
  · rw [List.length_range]
    exact Nat.div_mul_cancel hd
  · intro b _
    rw [butterflyBlock_length]
    omega

@[simp] theorem bitReversed_size (b : Nat) (x : Array Cx) : (bitReversed b x).size = 2 ^ b := by
  simp [bitReversed]

theorem passes_size (b : Nat) (tw x : Array Cx) (hx : x.size = 2 ^ b) (ps : List Nat)
    (hp : ∀ p ∈ ps, p < b) :
    (ps.foldl (fun y pass => butterflyPass (2 ^ b) (2 ^ (pass + 1)) tw y) x).size = 2 ^ b := by
  induction ps generalizing x with
  | nil => exact hx
  | cons p ps ih =>
    refine ih _ (butterflyPass_size _ _ _ _ ?_ ?_) fun q hq => hp q (by simp [hq])
    · rw [Nat.pow_succ]
      omega
    · exact Nat.pow_dvd_pow 2 (hp p (by simp))

@[simp] theorem fwd2_length (b : Nat) (x : List Cx) : (fwd2 b x).length = 2 ^ b := by
  have := passes_size b (trigTable (2 ^ b / 2) (2 ^ b)).toArray (bitReversed b x.toArray)
    (bitReversed_size b _) (List.range b) (by simp)
  simpa [fwd2] using this

@[simp] theorem invWith_length (f : List Cx → List Cx) (x : List Cx) :
    (invWith f x).length = (f (x.map Cx.swap)).length := by
  simp [invWith]

@[simp] theorem convWith_fwd2_length (b : Nat) (x y : List Cx) :
    (convWith (fwd2 b) x y).length = 2 ^ b := by
  simp [convWith]

@[simp] theorem chirp_length (n : Nat) : (chirp n).length = n := by simp [chirp]

/-- The convolution length of R125 is at least 2n − 1. -/
theorem le_two_pow_ceilLog2 (q : Nat) : q ≤ 2 ^ ceilLog2 q := by
  unfold ceilLog2
  split
  · simpa using by omega
  · have := Nat.lt_log2_self (n := q - 1)
    omega

/-- … and it is the smallest such power of two. -/
theorem two_pow_ceilLog2_lt (q : Nat) (h : 2 ≤ q) : 2 ^ ceilLog2 q < 2 * q := by
  unfold ceilLog2
  rw [if_neg (by omega), Nat.pow_succ]
  have := Nat.log2_self_le (n := q - 1) (by omega)
  omega

theorem fwdBluestein_length (x : List Cx) : (fwdBluestein x).length = x.length := by
  have h := le_two_pow_ceilLog2 (2 * x.length - 1)
  simp only [fwdBluestein, List.length_zipWith, convWith_fwd2_length, chirp_length]
  rcases Nat.eq_zero_or_pos x.length with h0 | h0 <;> omega

/-- A transform has the length of its input (R121). -/
@[simp] theorem fwd_length (x : List Cx) : (fwd x).length = x.length := by
  unfold fwd
  split
  · simp [*]
  · split
    · rename_i h
      simp only [isPow2, beq_iff_eq] at h
      rw [fwd2_length, ← h]
    · exact fwdBluestein_length x

@[simp] theorem inv_length (x : List Cx) : (inv x).length = x.length := by simp [inv]

@[simp] theorem conv_length (x y : List Cx) : (conv x y).length = min x.length y.length := by
  simp [conv, convWith]

end Sys2Proof.Machine
end

