-- ==== Sys2Proof/Laws/Effects.lean ====
section
/-!
SUPPORT. What the body of each command can write in a consistent state: how long its outputs are, where they
go, and that each region it writes passed its check.
-/

namespace Sys2Proof.Machine

/-! ### Lengths of the outputs -/

theorem le_smooth7From (fuel m : Nat) : m ≤ smooth7From fuel m := by
  induction fuel generalizing m with
  | zero => exact Nat.le_refl _
  | succ fuel ih =>
    unfold smooth7From
    split
    · exact Nat.le_refl _
    · exact Nat.le_trans (Nat.le_succ m) (ih (m + 1))

theorem le_smooth7 (x : Nat) : x ≤ smooth7 x := le_smooth7From x x

@[simp] theorem pilotIndices_length (k p : Nat) : (pilotIndices k p).length = p := by simp [pilotIndices]

theorem correlate_length (w l : Nat) (probe pre : List F32) (hw : 1 ≤ w) (hl : 3 * w - 1 ≤ l)
    (hp : probe.length = 2 * w) (hq : pre.length = w) : (correlate w l probe pre).length = w := by
  simp [correlate, hp, hq]
  omega

theorem peakFrom_lag (lag : Nat) (best : Peak) (mags : List F32) (h : best.lag < lag) :
    (peakFrom lag best mags).lag < lag + mags.length := by
  induction mags generalizing lag best with
  | nil => simpa [peakFrom] using h
  | cons m rest ih =>
    unfold peakFrom
    have := ih (lag + 1) (if fgt m best.peak then ⟨lag, m⟩ else best) (by split <;> simp; omega)
    simp only [List.length_cons]
    omega

theorem detect_lag (w : Nat) (c : List F32) (h : 1 ≤ c.length) : (detect w c).lag < c.length := by
  unfold detect findPeak
  have := peakFrom_lag 1 ⟨0, (c.map fabs).headD fZero⟩ (c.map fabs).tail (by simp)
  simp only [List.length_tail, List.length_map] at this
  show (peakFrom _ _ _).lag < _
  omega

@[simp] theorem placeAt_size (x : Array Cx) (bins : List Nat) (values : List Cx) :
    (placeAt x bins values).size = x.size := by
  unfold placeAt
  induction bins.zip values generalizing x with
  | nil => rfl
  | cons b rest ih => simp [ih]

theorem encSymbol_length (a : Active) (d p : List Cx) (h : a.cp ≤ a.n) :
    (encSymbol a d p).length = a.cp + a.n := by
  simp [encSymbol, withCyclicPrefix, symbolSpectrum]
  omega

theorem length_flatten_of_forall {α : Type} (ls : List (List α)) (k : Nat) (h : ∀ l ∈ ls, l.length = k) :
    ls.flatten.length = ls.length * k := by
  induction ls with
  | nil => simp
  | cons l rest ih =>
    rw [List.flatten_cons, List.length_append, h l (by simp), ih fun l' hl' => h l' (by simp [hl'])]
    rw [List.length_cons, Nat.succ_mul, Nat.add_comm]

theorem encodeSymbols_length (a : Active) (count : Nat) (d p : List Cx) (h : a.cp ≤ a.n) :
    (encodeSymbols a count d p).length = count * (a.cp + a.n) := by
  unfold encodeSymbols
  rw [length_flatten_of_forall _ (a.cp + a.n)]
  · simp [symbolsOf]
  · intro l hl
    rw [List.mem_iff_getElem] at hl
    obtain ⟨i, hi, rfl⟩ := hl
    rw [List.getElem_zipWith]
    exact encSymbol_length a _ _ h

theorem decodeSymbols_data_length (a : Active) (count : Nat) (w : List Cx) :
    (decodeSymbols a count w).1.length = count * a.data.length := by
  unfold decodeSymbols
  rw [length_flatten_of_forall _ a.data.length]
  · simp [symbolsOf]
  · intro l hl
    simp only [List.map_map, List.mem_map] at hl
    obtain ⟨x, -, rfl⟩ := hl
    simp [decSymbol, pickAt]

theorem decodeSymbols_pilot_length (a : Active) (count : Nat) (w : List Cx) :
    (decodeSymbols a count w).2.length = count * a.pilots.length := by
  unfold decodeSymbols
  rw [length_flatten_of_forall _ a.pilots.length]
  · simp [symbolsOf]
  · intro l hl
    simp only [List.map_map, List.mem_map] at hl
    obtain ⟨x, -, rfl⟩ := hl
    simp [decSymbol, pickAt]

theorem recentre_length (total : Nat) (raw : List Word) : (recentre total raw).length = total := by
  unfold recentre
  split
  · assumption
  · split <;> simp <;> omega

theorem readSymbols_length (mem : Memory) (m base i count : Nat) (ws : List Word)
    (h : readSymbols mem m base i count = .ok ws) : ws.length = count := by
  induction count generalizing i ws with
  | zero => simp only [readSymbols, Except.ok.injEq] at h; simp [← h]
  | succ count ih =>
    simp only [readSymbols] at h
    cases hw : readWord mem (base + i) with
    | none => simp [hw] at h
    | some w =>
      rw [hw] at h
      simp only at h
      split at h
      · cases hr : readSymbols mem m base (i + 1) count with
        | error e => simp [hr] at h
        | ok rest =>
          simp only [hr, Except.ok.injEq] at h
          simp [← h, ih (i + 1) rest hr]
      · cases h

@[simp] theorem symbolsOfStream_length (n count stream : Nat) :
    (symbolsOfStream n count stream).length = count := by
  induction count generalizing stream with
  | zero => rfl
  | succ count ih => simp [symbolsOfStream, ih]

@[simp] theorem bytesOfStream_length (count stream : Nat) : (bytesOfStream count stream).length = count := by
  induction count generalizing stream with
  | zero => rfl
  | succ count ih => simp [bytesOfStream, ih]

theorem wordsOfBytes_length (bs : List Byte) : (wordsOfBytes bs).length = ceilDiv bs.length 4 := by
  fun_induction wordsOfBytes bs with
  | case1 b0 b1 b2 b3 rest ih =>
    simp only [List.length_cons, ih, ceilDiv]
    omega
  | case2 => simp [ceilDiv]
  | case3 => simp [ceilDiv]
  | case4 => simp [ceilDiv]
  | case5 => simp [ceilDiv]

theorem streamOfBytes_lt (bs : List Byte) : streamOfBytes bs < 2 ^ (8 * bs.length) := by
  induction bs with
  | nil => simp [streamOfBytes]
  | cons b rest ih =>
    have := b.isLt
    simp only [streamOfBytes, List.length_cons, Nat.mul_add, Nat.mul_one, Nat.pow_add]
    omega

/-- A little-endian field of four bytes is below 2^32. -/
theorem ofLe_take_lt (bs : List Byte) : ofLe (bs.take 4) < 2 ^ 32 := by
  refine Nat.lt_of_lt_of_le (streamOfBytes_lt _) (Nat.pow_le_pow_right (by decide) ?_)
  simp
  omega

/-! ### The regions a command writes -/

theorem runChecks_ok (checks : List (Bool × ErrCode × Nat)) (u : Unit) (h : runChecks checks = .ok u) :
    ∀ c ∈ checks, c.1 = true := by
  induction checks with
  | nil => simp
  | cons c rest ih =>
    obtain ⟨holds, code, info⟩ := c
    cases holds <;> simp_all [runChecks, check, bind, Except.bind]

/-- A check's region of a passed list is valid. -/
theorem region_of_checks {s : State} {checks : List (Bool × ErrCode × Nat)}
    (h : ∀ c ∈ checks, c.1 = true) {i : Fin 12} {len : Nat} (hm : s.regionCheck i len ∈ checks) :
    s.regionOk i len := of_decide_eq_true (h _ hm)

/-- The regions of an effect, as base and length. -/
def Effect.regions (e : Effect) : List (Nat × Nat) := e.writes.map fun w => (w.1, w.2.length)

/-- A region of `len` words at `base` lies inside a DMEM of `dmemWords` words (R62). -/
def RegionIn (dmemWords : Nat) (r : Nat × Nat) : Prop := r.2 = 0 ∨ r.1 + r.2 ≤ dmemWords

/-- What a successful command writes: exactly the regions it stores to, all of them inside DMEM, and each
inside a region its rule names. -/
structure WritesOk (i : Instr) (s : State) (e : Effect) : Prop where
  stored : e.regions = storedRegions i s e.commit
  inDmem : ∀ r ∈ e.regions, RegionIn s.hw.dmemWords r
  named : ∀ r ∈ e.regions, ∃ q ∈ namedRegions i s, q.1 = r.1 ∧ r.2 ≤ q.2

/-- A command whose named regions are those of its effect (log 6) names every region it writes. -/
theorem effectRegions_named {i : Instr} {s : State} {e : Effect} {unread : List (Nat × Nat)}
    (h : namedRegions i s = effectRegions (.ok e) unread) :
    ∀ r ∈ e.regions, ∃ q ∈ namedRegions i s, q.1 = r.1 ∧ r.2 ≤ q.2 :=
  fun r hr => ⟨r, by rw [h]; exact hr, rfl, Nat.le_refl _⟩

theorem writesOk_nop (s : State) (e : Effect) (h : effectNop s = .ok e) : WritesOk .nop s e := by
  cases h
  exact ⟨rfl, by simp [Effect.regions, Effect.of], by simp [Effect.regions, Effect.of]⟩

theorem writesOk_syncReset (s : State) (e : Effect) (h : effectSyncReset s = .ok e) :
    WritesOk .syncReset s e := by
  cases h
  exact ⟨rfl, by simp [Effect.regions, Effect.of], by simp [Effect.regions, Effect.of]⟩

theorem writesOk_cfgApply (s : State) (e : Effect) (h : effectCfgApply s = .ok e) :
    WritesOk .cfgApply s e := by
  unfold effectCfgApply at h
  obtain ⟨_, -, h⟩ := (bind_ok _ _ _).mp h
  obtain ⟨_, -, h⟩ := (bind_ok _ _ _).mp h
  cases h
  exact ⟨rfl, by simp [Effect.regions, Effect.of], by simp [Effect.regions, Effect.of]⟩

theorem writesOk_layoutDump (s : State) (e : Effect) (hi : Inv s) (h : effectLayoutDump s = .ok e) :
    WritesOk .layoutDump s e := by
  rw [effect_layoutDump] at h
  obtain ⟨u, hc, h⟩ := (bind_ok _ _ _).mp h
  have hc := runChecks_ok _ _ hc
  cases h
  have hv : s.cfgValid = true := hc s.configuredCheck (by simp [commandChecks])
  have ha := (hi.configured hv).1
  have hd : s.act.data.length = s.act.d := ha.dataCount
  have hp : s.act.pilots.length = s.act.p := by rw [ha.pilots]; simp
  have r0 : s.regionOk 0 s.act.p := region_of_checks hc (by simp [commandChecks])
  have r1 : s.regionOk 1 s.act.d := region_of_checks hc (by simp [commandChecks])
  refine ⟨?_, ?_, ?_⟩
  · simp [Effect.regions, Effect.of, storedRegions, hd, hp]
  · simpa [Effect.regions, Effect.of, RegionIn, hd, hp] using ⟨r0, r1⟩
  · simp [Effect.regions, Effect.of, namedRegions, hd, hp]

theorem writesOk_transform (transform : List Cx → List Cx) (i : Instr) (hiN : i = .fftFwd ∨ i = .fftInv)
    (ht : ∀ x, (transform x).length = x.length) (s : State) (e : Effect)
    (h : effectTransform transform s = .ok e) : WritesOk i s e := by
  rw [effect_transform] at h
  obtain ⟨u, hc, h⟩ := (bind_ok _ _ _).mp h
  have hc := runChecks_ok _ _ hc
  obtain ⟨re, hre, h⟩ := (bind_ok _ _ _).mp h
  obtain ⟨im, him, h⟩ := (bind_ok _ _ _).mp h
  cases h
  have l0 := memRead_length _ _ _ _ hre
  have l1 := memRead_length _ _ _ _ him
  have r0 : s.regionOk 0 (s.arg 2) := region_of_checks hc (by simp [commandChecks])
  have r1 : s.regionOk 1 (s.arg 2) := region_of_checks hc (by simp [commandChecks])
  refine ⟨?_, ?_, ?_⟩
  · rcases hiN with rfl | rfl <;> simp [Effect.regions, Effect.of, storedRegions, ht, l0, l1]
  · simpa [Effect.regions, Effect.of, RegionIn, ht, l0, l1] using ⟨r0, r1⟩
  · rcases hiN with rfl | rfl <;> simp [Effect.regions, Effect.of, namedRegions, ht, l0, l1]

theorem writesOk_cconv (s : State) (e : Effect) (h : effectCconv s = .ok e) : WritesOk .cconv s e := by
  rw [effect_cconv] at h
  obtain ⟨u, hc, h⟩ := (bind_ok _ _ _).mp h
  have hc := runChecks_ok _ _ hc
  obtain ⟨xre, h0, h⟩ := (bind_ok _ _ _).mp h
  obtain ⟨xim, h1, h⟩ := (bind_ok _ _ _).mp h
  obtain ⟨yre, h2, h⟩ := (bind_ok _ _ _).mp h
  obtain ⟨yim, h3, h⟩ := (bind_ok _ _ _).mp h
  cases h
  have l0 := memRead_length _ _ _ _ h0
  have l1 := memRead_length _ _ _ _ h1
  have l2 := memRead_length _ _ _ _ h2
  have l3 := memRead_length _ _ _ _ h3
  have r0 : s.regionOk 4 (s.arg 6) := region_of_checks hc (by simp [commandChecks])
  have r1 : s.regionOk 5 (s.arg 6) := region_of_checks hc (by simp [commandChecks])
  refine ⟨?_, ?_, ?_⟩
  · simp [Effect.regions, Effect.of, storedRegions, l0, l1, l2, l3]
  · simpa [Effect.regions, Effect.of, RegionIn, l0, l1, l2, l3] using ⟨r0, r1⟩
  · simp [Effect.regions, Effect.of, namedRegions, l0, l1, l2, l3]

theorem ActiveOk.one_le_w {hw : HwParams} {a : Active} (h : ActiveOk hw a) : 1 ≤ a.w := by
  have h1 := h.nPos
  have h2 := h.rVal
  rcases h.wVal with h3 | h3 <;> omega

theorem ActiveOk.window_le {hw : HwParams} {a : Active} (h : ActiveOk hw a) : 3 * a.w - 1 ≤ a.l := by
  rw [h.lVal]
  exact le_smooth7 _

theorem writesOk_xcorr (preBase : Nat) (i : Instr) (hiN : i = .xcorr ∨ i = .xcorrSel) (s : State)
    (e : Effect) (hi : Inv s) (h : effectXcorrWith preBase s = .ok e) : WritesOk i s e := by
  rw [effect_xcorr] at h
  obtain ⟨u, hc, h⟩ := (bind_ok _ _ _).mp h
  have hc := runChecks_ok _ _ hc
  obtain ⟨probe, h0, h⟩ := (bind_ok _ _ _).mp h
  obtain ⟨pre, h1, h⟩ := (bind_ok _ _ _).mp h
  cases h
  have hv : s.cfgValid = true := hc s.configuredCheck (by simp [commandChecks])
  have ha := (hi.configured hv).1
  have l := correlate_length s.act.w s.act.l probe pre ha.one_le_w ha.window_le
    (memRead_length _ _ _ _ h0) (memRead_length _ _ _ _ h1)
  have r1 : s.regionOk 1 s.act.w := region_of_checks hc (by simp [commandChecks])
  refine ⟨?_, ?_, ?_⟩
  · rcases hiN with rfl | rfl <;> simp [Effect.regions, Effect.of, storedRegions, l]
  · simpa [Effect.regions, Effect.of, RegionIn, l] using r1
  · rcases hiN with rfl | rfl <;> simp [Effect.regions, Effect.of, namedRegions, l]

theorem writesOk_ofdmEnc (s : State) (e : Effect) (hi : Inv s) (h : effectOfdmEnc s = .ok e) :
    WritesOk .ofdmEnc s e := by
  rw [effectOfdmEnc, effect_ofdmEnc] at h
  obtain ⟨u, hc, h⟩ := (bind_ok _ _ _).mp h
  have hc := runChecks_ok _ _ hc
  obtain ⟨_, -, h⟩ := (bind_ok _ _ _).mp h
  obtain ⟨_, -, h⟩ := (bind_ok _ _ _).mp h
  obtain ⟨_, -, h⟩ := (bind_ok _ _ _).mp h
  obtain ⟨_, -, h⟩ := (bind_ok _ _ _).mp h
  cases h
  have hv : s.cfgValid = true := hc s.configuredCheck (by simp [commandChecks])
  have ha := (hi.configured hv).1
  have r1 : s.regionOk 4 (s.arg 6 * s.act.r) := region_of_checks hc (by simp [commandChecks])
  have hr : s.act.cp + s.act.n = s.act.r := by rw [ha.rVal, Nat.add_comm]
  refine ⟨?_, ?_, ?_⟩
  · simp [Effect.regions, Effect.of, storedRegions, encodeSymbols_length _ _ _ _ ha.cpMax, hr]
  · simpa [Effect.regions, Effect.of, RegionIn, State.regionOk,
      encodeSymbols_length _ _ _ _ ha.cpMax, hr] using r1
  · simp [Effect.regions, Effect.of, namedRegions, encodeSymbols_length _ _ _ _ ha.cpMax, hr]

theorem writesOk_ofdmEncImagOut (s : State) (e : Effect) (hi : Inv s)
    (h : effectOfdmEncImagOut s = .ok e) : WritesOk .ofdmEncImagOut s e := by
  rw [effectOfdmEncImagOut, effect_ofdmEncImagOut] at h
  obtain ⟨u, hc, h⟩ := (bind_ok _ _ _).mp h
  have hc := runChecks_ok _ _ hc
  obtain ⟨_, -, h⟩ := (bind_ok _ _ _).mp h
  obtain ⟨_, -, h⟩ := (bind_ok _ _ _).mp h
  obtain ⟨_, -, h⟩ := (bind_ok _ _ _).mp h
  obtain ⟨_, -, h⟩ := (bind_ok _ _ _).mp h
  cases h
  have hv : s.cfgValid = true := hc s.configuredCheck (by simp [commandChecks])
  have ha := (hi.configured hv).1
  have r1 : s.regionOk 4 (s.arg 6 * s.act.r) := region_of_checks hc (by simp [commandChecks])
  have r2 : s.regionOk 5 (s.arg 6 * s.act.r) := region_of_checks hc (by simp [commandChecks])
  have hr : s.act.cp + s.act.n = s.act.r := by rw [ha.rVal, Nat.add_comm]
  refine ⟨?_, ?_, ?_⟩
  · simp [Effect.regions, Effect.of, storedRegions, encodeSymbols_length _ _ _ _ ha.cpMax, hr]
  · simpa [Effect.regions, Effect.of, RegionIn, State.regionOk,
      encodeSymbols_length _ _ _ _ ha.cpMax, hr] using And.intro r1 r2
  · simp [Effect.regions, Effect.of, namedRegions, encodeSymbols_length _ _ _ _ ha.cpMax, hr]

/-- The four output regions of the decoder. -/
theorem writesOk_decoded (i : Instr) (hiN : i = .ofdmDec ∨ i = .ofdmDecImagIn) (s : State) (w : List Cx)
    (hi : Inv s) (hv : s.cfgValid = true)
    (r2 : s.regionOk 2 (s.arg 6 * s.act.d)) (r3 : s.regionOk 3 (s.arg 6 * s.act.d))
    (r4 : s.regionOk 4 (s.arg 6 * s.act.p)) (r5 : s.regionOk 5 (s.arg 6 * s.act.p)) :
    WritesOk i s
      (Effect.of s
        [(s.arg 2, reals (decodeSymbols s.act (s.arg 6) w).1),
          (s.arg 3, imags (decodeSymbols s.act (s.arg 6) w).1),
          (s.arg 4, reals (decodeSymbols s.act (s.arg 6) w).2),
          (s.arg 5, imags (decodeSymbols s.act (s.arg 6) w).2)]) := by
  have ha := (hi.configured hv).1
  have hd : s.act.data.length = s.act.d := ha.dataCount
  have hp : s.act.pilots.length = s.act.p := by rw [ha.pilots]; simp
  refine ⟨?_, ?_, ?_⟩
  · rcases hiN with rfl | rfl <;>
      simp [Effect.regions, Effect.of, storedRegions, decodeSymbols_data_length,
        decodeSymbols_pilot_length, hd, hp]
  · simpa [Effect.regions, Effect.of, RegionIn, State.regionOk, decodeSymbols_data_length,
      decodeSymbols_pilot_length, hd, hp] using And.intro r2 (And.intro r3 (And.intro r4 r5))
  · rcases hiN with rfl | rfl <;>
      simp [Effect.regions, Effect.of, namedRegions, decodeSymbols_data_length,
        decodeSymbols_pilot_length, hd, hp]

theorem writesOk_ofdmDec (s : State) (e : Effect) (hi : Inv s) (h : effectOfdmDec s = .ok e) :
    WritesOk .ofdmDec s e := by
  rw [effectOfdmDec, effect_ofdmDec] at h
  obtain ⟨u, hc, h⟩ := (bind_ok _ _ _).mp h
  have hc := runChecks_ok _ _ hc
  obtain ⟨_, -, h⟩ := (bind_ok _ _ _).mp h
  obtain ⟨_, -, h⟩ := (bind_ok _ _ _).mp h
  cases h
  exact writesOk_decoded _ (.inl rfl) s _ hi (hc s.configuredCheck (by simp [commandChecks]))
    (region_of_checks hc (by simp [commandChecks])) (region_of_checks hc (by simp [commandChecks]))
    (region_of_checks hc (by simp [commandChecks])) (region_of_checks hc (by simp [commandChecks]))

theorem writesOk_ofdmDecImagIn (s : State) (e : Effect) (hi : Inv s)
    (h : effectOfdmDecImagIn s = .ok e) : WritesOk .ofdmDecImagIn s e := by
  rw [effectOfdmDecImagIn, effect_ofdmDecImagIn] at h
  obtain ⟨u, hc, h⟩ := (bind_ok _ _ _).mp h
  have hc := runChecks_ok _ _ hc
  obtain ⟨_, -, h⟩ := (bind_ok _ _ _).mp h
  obtain ⟨_, -, h⟩ := (bind_ok _ _ _).mp h
  cases h
  exact writesOk_decoded _ (.inr rfl) s _ hi (hc s.configuredCheck (by simp [commandChecks]))
    (region_of_checks hc (by simp [commandChecks])) (region_of_checks hc (by simp [commandChecks]))
    (region_of_checks hc (by simp [commandChecks])) (region_of_checks hc (by simp [commandChecks]))

theorem writesOk_realign (s : State) (e : Effect) (h : effectRealign s = .ok e) :
    WritesOk .realign s e := by
  rw [effect_realign] at h
  obtain ⟨u, hc, h⟩ := (bind_ok _ _ _).mp h
  have hc := runChecks_ok _ _ hc
  obtain ⟨raw, -, h⟩ := (bind_ok _ _ _).mp h
  cases h
  have r : s.regionOk 3 (s.arg 2 * s.act.r) := region_of_checks hc (by simp [commandChecks])
  refine ⟨?_, ?_, ?_⟩
  · simp [Effect.regions, Effect.of, storedRegions, recentre_length]
  · simpa [Effect.regions, Effect.of, RegionIn, State.regionOk, recentre_length] using r
  · simp [Effect.regions, Effect.of, namedRegions, recentre_length]

theorem writesOk_chEst (s : State) (e : Effect) (h : effectChEst s = .ok e) : WritesOk .chEst s e := by
  rw [effect_chEst] at h
  obtain ⟨u, -, h⟩ := (bind_ok _ _ _).mp h
  obtain ⟨_, -, h⟩ := (bind_ok _ _ _).mp h
  obtain ⟨_, -, h⟩ := (bind_ok _ _ _).mp h
  obtain ⟨_, -, h⟩ := (bind_ok _ _ _).mp h
  obtain ⟨_, -, h⟩ := (bind_ok _ _ _).mp h
  cases h
  exact ⟨rfl, by simp [Effect.regions, Effect.of], by simp [Effect.regions, Effect.of]⟩

theorem writesOk_chEq (s : State) (e : Effect) (h : effectChEq s = .ok e) : WritesOk .chEq s e := by
  rw [effect_chEq] at h
  obtain ⟨u, hc, h⟩ := (bind_ok _ _ _).mp h
  have hc := runChecks_ok _ _ hc
  obtain ⟨re, h0, h⟩ := (bind_ok _ _ _).mp h
  obtain ⟨im, h1, h⟩ := (bind_ok _ _ _).mp h
  cases h
  have l0 := memRead_length _ _ _ _ h0
  have l1 := memRead_length _ _ _ _ h1
  have r2 : s.regionOk 2 (s.arg 4) := region_of_checks hc (by simp [commandChecks])
  have r3 : s.regionOk 3 (s.arg 4) := region_of_checks hc (by simp [commandChecks])
  refine ⟨?_, ?_, ?_⟩
  · simp [Effect.regions, Effect.of, storedRegions, l0, l1]
  · simpa [Effect.regions, Effect.of, RegionIn, l0, l1] using ⟨r2, r3⟩
  · simp [Effect.regions, Effect.of, namedRegions, l0, l1]

theorem writesOk_pskMod (s : State) (e : Effect) (h : effectPskMod s = .ok e) : WritesOk .pskMod s e := by
  rw [effect_pskMod] at h
  obtain ⟨u, hc, h⟩ := (bind_ok _ _ _).mp h
  have hc := runChecks_ok _ _ hc
  obtain ⟨syms, h0, h⟩ := (bind_ok _ _ _).mp h
  cases h
  have l := readSymbols_length _ _ _ _ _ _ h0
  have r1 : s.regionOk 1 (s.arg 3) := region_of_checks hc (by simp [commandChecks])
  have r2 : s.regionOk 2 (s.arg 3) := region_of_checks hc (by simp [commandChecks])
  refine ⟨?_, ?_, ?_⟩
  · simp [Effect.regions, Effect.of, storedRegions, l]
  · simpa [Effect.regions, Effect.of, RegionIn, l] using ⟨r1, r2⟩
  · simp [Effect.regions, Effect.of, namedRegions, l]

theorem writesOk_pskDemod (s : State) (e : Effect) (h : effectPskDemod s = .ok e) :
    WritesOk .pskDemod s e := by
  rw [effect_pskDemod] at h
  obtain ⟨u, hc, h⟩ := (bind_ok _ _ _).mp h
  have hc := runChecks_ok _ _ hc
  obtain ⟨xs, h0, h⟩ := (bind_ok _ _ _).mp h
  obtain ⟨ys, h1, h⟩ := (bind_ok _ _ _).mp h
  cases h
  have l0 := memRead_length _ _ _ _ h0
  have l1 := memRead_length _ _ _ _ h1
  have r2 : s.regionOk 2 (s.arg 3) := region_of_checks hc (by simp [commandChecks])
  refine ⟨?_, ?_, ?_⟩
  · simp [Effect.regions, Effect.of, storedRegions, l0, l1]
  · simpa [Effect.regions, Effect.of, RegionIn, l0, l1] using r2
  · simp [Effect.regions, Effect.of, namedRegions, l0, l1]

theorem HwParams.dmemWords_lt {p : HwParams} (h : p.legal = true) : p.dmemWords < 2 ^ 32 := by
  simp only [HwParams.legal, Bool.and_eq_true, decide_eq_true_eq] at h
  omega

theorem writesOk_bitPack (s : State) (e : Effect) (hi : Inv s) (h : effectBitPack s = .ok e) :
    WritesOk .bitPack s e := by
  rw [effect_bitPack] at h
  obtain ⟨u, hc, h⟩ := (bind_ok _ _ _).mp h
  have hc := runChecks_ok _ _ hc
  obtain ⟨ws, h0, h⟩ := (bind_ok _ _ _).mp h
  cases h
  have r2 : s.regionOk 2 (packedCount (s.arg 3) (s.arg 4) (s.arg 1)) :=
    region_of_checks hc (by simp [commandChecks])
  have hlt : packedCount (s.arg 3) (s.arg 4) (s.arg 1) < 2 ^ 32 := by
    have := HwParams.dmemWords_lt hi.hw
    rcases r2 with r2 | r2 <;> omega
  refine ⟨?_, ?_, ?_⟩
  · simp [Effect.regions, Effect.of, storedRegions, packSymbols, State.setRes, Effect.commit,
      State.complete]
    exact (Nat.mod_eq_of_lt hlt).symm
  · simpa [Effect.regions, Effect.of, RegionIn, packSymbols] using r2
  · simp [Effect.regions, Effect.of, namedRegions, packSymbols]

theorem checkHeader_ok (count : Nat) (bytes : List Byte) (declared : Nat)
    (h : checkHeader count bytes = .ok declared) :
    8 ≤ bytes.length ∧ declared ≤ bytes.length - 8 ∧ declared = ofLe ((bytes.drop 4).take 4) := by
  unfold checkHeader at h
  obtain ⟨_, h0, h⟩ := (bind_ok _ _ _).mp h
  obtain ⟨_, -, h⟩ := (bind_ok _ _ _).mp h
  obtain ⟨_, h2, h⟩ := (bind_ok _ _ _).mp h
  cases h
  rw [check_ok, decide_eq_true_eq] at h0 h2
  exact ⟨h0, h2, rfl⟩

theorem writesOk_bitUnpack (s : State) (e : Effect) (h : effectBitUnpack s = .ok e) :
    WritesOk .bitUnpack s e := by
  have hok := h
  rw [effect_bitUnpack] at h
  obtain ⟨u, -, h⟩ := (bind_ok _ _ _).mp h
  unfold bitUnpackBody at h
  obtain ⟨syms, -, h⟩ := (bind_ok _ _ _).mp h
  obtain ⟨_, -, h⟩ := (bind_ok _ _ _).mp h
  obtain ⟨declared, hh, h⟩ := (bind_ok _ _ _).mp h
  obtain ⟨_, h5, h⟩ := (bind_ok _ _ _).mp h
  obtain ⟨_, r2, h⟩ := (bind_ok _ _ _).mp h
  obtain ⟨hb8, hle, hdef⟩ := checkHeader_ok _ _ _ hh
  have hlt : declared < 2 ^ 32 := by rw [hdef]; exact ofLe_take_lt _
  rw [check_ok, decide_eq_true_eq] at h5
  rw [checkRegion_eq, check_ok, decide_eq_true_eq] at r2
  rw [bytesOfStream_length] at hb8 hle
  have hp : min declared (s.arg 1 * s.arg 3 / 8 - 8) = declared := by omega
  cases h
  refine ⟨?_, ?_, ?_⟩
  · simp [Effect.regions, Effect.of, storedRegions, wordsOfBytes_length, hp, Effect.commit, State.complete,
      State.setRes]
    exact congrArg (ceilDiv · 4) (Nat.mod_eq_of_lt hlt).symm
  · simpa [Effect.regions, Effect.of, RegionIn, wordsOfBytes_length, hp] using r2
  · exact effectRegions_named (by rw [namedRegions, hok])

/-! ### What a push does -/

theorem sum_le_of_forall_lt (h : List Nat) (w : Nat) (hw : ∀ x ∈ h, x < w) :
    h.sum ≤ h.length * (w - 1) := by
  induction h with
  | nil => simp
  | cons x rest ih =>
    have h1 := hw x (by simp)
    have h2 := ih fun y hy => hw y (by simp [hy])
    simp only [List.sum_cons, List.length_cons, Nat.succ_mul]
    omega

/-- The boundary of a history that is not empty lies inside the window (R146). -/
theorem boundaryOf_lt (h : List Nat) (w : Nat) (hne : 1 ≤ h.length) (hw : ∀ x ∈ h, x < w) :
    boundaryOf h.length h < w := by
  have hx : 0 < w := by
    obtain ⟨x, rest, rfl⟩ := List.exists_cons_of_length_pos hne
    have := hw x (by simp)
    omega
  have hs := sum_le_of_forall_lt h w hw
  unfold boundaryOf histSum
  rw [Nat.div_lt_iff_lt_mul (by omega)]
  have : w * (2 * h.length) = 2 * (h.length * (w - 1)) + 2 * h.length := by
    obtain ⟨v, rfl⟩ : ∃ v, w = v + 1 := ⟨w - 1, by omega⟩
    simp only [Nat.add_sub_cancel]
    ring
  omega

theorem updateHistory_length (cap : Nat) (pass : Bool) (h : List Nat) (lag : Nat) (hc : 1 ≤ cap)
    (hl : h.length ≤ cap) : (updateHistory cap pass h lag).length ≤ cap := by
  unfold updateHistory
  split
  · split <;> simp <;> omega
  · simp

theorem updateHistory_lag (cap : Nat) (pass : Bool) (h : List Nat) (lag w : Nat) (hw : ∀ x ∈ h, x < w)
    (hl : lag < w) : ∀ x ∈ updateHistory cap pass h lag, x < w := by
  unfold updateHistory
  split
  · intro x hx
    rw [List.mem_append, List.mem_singleton] at hx
    rcases hx with hx | rfl
    · split at hx
      · exact hw x (List.mem_of_mem_tail hx)
      · exact hw x hx
    · exact hl
  · simp

theorem ActiveOk.w_le_c {hw : HwParams} {a : Active} (h : ActiveOk hw a) : (a.ne + 1) * a.w ≤ a.c := by
  rw [h.cVal]
  exact Nat.le_add_left _ _

/-- What one push leaves: a synchronizer state that pushes could have reached, and what it writes. -/
structure PushOk (a : Active) (sy : Sync) (r : PushResult) : Prop where
  sync : SyncOk a r.sync
  start : r.sync.event = .start →
    sy.mode = .searchingStart ∧
      ∃ b ws, b < a.w ∧ r.sync.bound = BitVec.ofNat 32 b ∧ ws.length = a.w - b ∧ r.writes = [(a.cap, ws)]
  append : r.sync.event = .noDetect ∨ r.sync.event = .candidate → sy.mode = .capturing →
    sy.capLen + a.w ≤ a.c ∧ ∃ ws, ws.length = a.w ∧ r.writes = [(a.cap + sy.capLen, ws)]
  search : r.sync.event = .noDetect ∨ r.sync.event = .candidate → sy.mode = .searchingStart →
    r.writes = []
  other : r.sync.event = .none ∨ r.sync.event = .primed ∨ r.sync.event = .frame ∨
    r.sync.event = .tooLong → r.writes = []

theorem pushPriming_ok (a : Active) (sy : Sync) (cur : List F32) (hs : SyncOk a sy)
    (hp : sy.prevValid = false) (hc : cur.length = a.w) :
    PushOk a sy (cachedWindow (pushPriming sy) cur) := by
  have h0 := hs.unprimed hp
  subst h0
  constructor
  · constructor <;> simp [cachedWindow, pushPriming, Sync.reset, hc]
  · simp [cachedWindow, pushPriming]
  · simp [cachedWindow, pushPriming]
  · simp [cachedWindow, pushPriming]
  · simp [cachedWindow, pushPriming]

theorem pushSearching_ok (hw : HwParams) (a : Active) (sy : Sync) (d : Detection) (cur : List F32)
    (ha : ActiveOk hw a) (hs : SyncOk a sy) (hm : sy.mode = .searchingStart) (hd : d.lag < a.w)
    (hc : cur.length = a.w) : PushOk a sy (cachedWindow (pushSearching a sy d cur) cur) := by
  have hl := updateHistory_length a.ns (passes a.thresh d) sy.histS d.lag ha.nsPos hs.histSLen
  have hw' := updateHistory_lag a.ns (passes a.thresh d) sy.histS d.lag a.w hs.histSLag hd
  have h0 := hs.searching hm
  simp only [pushSearching]
  by_cases hb : boundaryFound a.ns a.disp (passes a.thresh d) (recordStart a sy d).histS = true
  · rw [if_pos hb]
    simp only [recordStart, boundaryFound, Bool.and_eq_true, beq_iff_eq] at hb
    have hbl := boundaryOf_lt _ a.w (by rw [hb.1.2]; exact ha.nsPos) hw'
    rw [hb.1.2] at hbl
    simp only [recordStart]
    constructor
    · constructor <;> simp [cachedWindow, startStep, hc, hs.frameLen]
      have := ha.w_le_c
      have := ha.nePos
      nlinarith
    · intro _
      exact ⟨hm, _, _, hbl, rfl, by simp [hc], rfl⟩
    · simp [cachedWindow, startStep]
    · simp [cachedWindow, startStep]
    · simp [cachedWindow, startStep]
  · rw [if_neg hb]
    simp only [recordStart]
    constructor
    · constructor <;> simp [cachedWindow, hc, hs.frameLen, hl, h0, hm]
      exact hw'
    · simp only [cachedWindow]
      split <;> simp
    · simp [hm]
    · simp [cachedWindow]
    · simp [cachedWindow]

theorem pushCapturing_ok (hw : HwParams) (a : Active) (sy : Sync) (d : Detection) (cur : List F32)
    (ha : ActiveOk hw a) (hs : SyncOk a sy) (hm : sy.mode = .capturing) (hd : d.lag < a.w)
    (hc : cur.length = a.w) : PushOk a sy (cachedWindow (pushCapturing a sy d cur) cur) := by
  have hl := updateHistory_length a.ne (passes a.thresh d) sy.histE d.lag ha.nePos hs.histELen
  have hw' := updateHistory_lag a.ne (passes a.thresh d) sy.histE d.lag a.w hs.histELag hd
  have h0 := hs.capturing hm
  have hcl := hs.capLen
  simp only [pushCapturing]
  by_cases hb : boundaryFound a.ne a.disp (passes a.thresh d) (recordEnd a sy d).histE = true
  · rw [if_pos hb]
    simp only [recordEnd, boundaryFound, Bool.and_eq_true, beq_iff_eq] at hb
    have hbl := boundaryOf_lt _ a.w (by rw [hb.1.2]; exact ha.nePos) hw'
    rw [hb.1.2] at hbl
    simp only [recordEnd]
    constructor
    · constructor <;> simp [cachedWindow, endStep, hc]
      refine Nat.le_trans (Nat.mod_le _ _) ?_
      have h1 : a.w ≤ a.ne * a.w := Nat.le_mul_of_pos_left _ ha.nePos
      simp only [frameLength]
      omega
    · simp [cachedWindow, endStep]
    · simp [cachedWindow, endStep]
    · simp [cachedWindow, endStep]
    · simp [cachedWindow, endStep]
  · rw [if_neg hb]
    simp only [captureStep]
    by_cases hle : a.c < (recordEnd a sy d).capLen + a.w
    · rw [if_pos hle]
      simp only [recordEnd]
      constructor
      · constructor <;> simp [cachedWindow, hc, hs.frameLen]
      · simp [cachedWindow]
      · simp [cachedWindow]
      · simp [cachedWindow]
      · simp [cachedWindow]
    · rw [if_neg hle]
      simp only [recordEnd, Nat.not_lt] at hle ⊢
      constructor
      · constructor <;> simp [cachedWindow, hc, hs.frameLen, hl, h0, hm]
        · exact hw'
        · exact hle
      · simp only [cachedWindow]
        split <;> simp
      · intro _ _
        exact ⟨hle, _, hc, rfl⟩
      · simp [hm]
      · simp only [cachedWindow]
        split <;> simp

/-- Recording what a correlation observed leaves the rest of the synchronizer alone. -/
theorem SyncOk.observed {a : Active} {sy : Sync} (h : SyncOk a sy) (hp : sy.prevValid = true)
    (lag : Word) (peak stat : F32) : SyncOk a { sy with lag := lag, peak := peak, stat := stat } where
  prevLen := h.prevLen
  unprimed := by simp [hp]
  histSLen := h.histSLen
  histELen := h.histELen
  histSLag := h.histSLag
  histELag := h.histELag
  capLen := h.capLen
  searching := h.searching
  capturing := h.capturing
  frameLen := h.frameLen

theorem pushCorrelated_ok (hw : HwParams) (a : Active) (sy : Sync) (d : Detection) (cur : List F32)
    (ha : ActiveOk hw a) (hs : SyncOk a sy) (hp : sy.prevValid = true) (hd : d.lag < a.w)
    (hc : cur.length = a.w) : PushOk a sy (cachedWindow (pushCorrelated a sy d cur) cur) := by
  have hs' := hs.observed hp (BitVec.ofNat 32 d.lag) d.peak d.stat
  have hm : sy.mode = .searchingStart ∨ sy.mode = .capturing := by cases sy.mode <;> simp
  rcases hm with hm | hm
  · have he : pushCorrelated a sy d cur =
        pushSearching a { sy with lag := BitVec.ofNat 32 d.lag, peak := d.peak, stat := d.stat } d cur := by
      simp only [pushCorrelated, hm]
    rw [he]
    have := pushSearching_ok hw a _ d cur ha hs' hm hd hc
    exact ⟨this.sync, this.start, this.append, this.search, this.other⟩
  · have he : pushCorrelated a sy d cur =
        pushCapturing a { sy with lag := BitVec.ofNat 32 d.lag, peak := d.peak, stat := d.stat } d cur := by
      simp only [pushCorrelated, hm]
    rw [he]
    have := pushCapturing_ok hw a _ d cur ha hs' hm hd hc
    exact ⟨this.sync, this.start, this.append, this.search, this.other⟩

/-- A successful push, in a consistent state: its result, and the effect it makes of it. -/
theorem effectSyncPush_ok (s : State) (e : Effect) (hi : Inv s) (h : effectSyncPush s = .ok e) :
    s.cfgValid = true ∧ ∃ r, PushOk s.act s.sync r ∧ e = pushEffect s r ∧
      (s.sync.prevValid = false → r.sync.event = .primed) := by
  rw [effect_syncPush] at h
  obtain ⟨u, hc, h⟩ := (bind_ok _ _ _).mp h
  have hc := runChecks_ok _ _ hc
  have hv : s.cfgValid = true := hc s.configuredCheck (by simp [commandChecks])
  obtain ⟨ha, hs⟩ := hi.configured hv
  refine ⟨hv, ?_⟩
  unfold syncPushBody at h
  obtain ⟨cur, h0, h⟩ := (bind_ok _ _ _).mp h
  have l0 := memRead_length _ _ _ _ h0
  split at h
  · rename_i hp
    obtain ⟨pre, h1, h⟩ := (bind_ok _ _ _).mp h
    have l1 := memRead_length _ _ _ _ h1
    have lc := correlate_length s.act.w s.act.l (s.sync.prev ++ cur) pre ha.one_le_w ha.window_le
      (by rw [List.length_append, hs.prevLen hp, l0]; omega) l1
    have hd := detect_lag s.act.w (correlate s.act.w s.act.l (s.sync.prev ++ cur) pre)
      (by rw [lc]; exact ha.one_le_w)
    rw [lc] at hd
    cases h
    exact ⟨_, pushCorrelated_ok s.hw s.act s.sync _ cur ha hs hp hd l0, rfl, by simp [hp]⟩
  · rename_i hp
    cases h
    exact ⟨_, pushPriming_ok s.act s.sync cur hs (by simpa using hp) l0, rfl,
      fun _ => rfl⟩

theorem HwParams.fftMaxLen_le {p : HwParams} (h : p.legal = true) : p.fftMaxLen ≤ 65536 := by
  simp only [HwParams.legal, Bool.and_eq_true, decide_eq_true_eq] at h
  omega

theorem ActiveOk.w_lt {hw : HwParams} {a : Active} (h : ActiveOk hw a) (hl : hw.legal = true) :
    a.w < 2 ^ 32 := by
  have h1 := HwParams.fftMaxLen_le hl
  have h2 := h.nMax
  have h3 := h.rVal
  have h4 := h.cpMax
  rcases h.wVal with h5 | h5 <;> omega

theorem writesOk_syncPush (s : State) (e : Effect) (hi : Inv s) (h : effectSyncPush s = .ok e) :
    WritesOk .syncPush s e := by
  have hok := h
  obtain ⟨hv, r, hr, rfl, -⟩ := effectSyncPush_ok s e hi h
  obtain ⟨ha, hs⟩ := hi.configured hv
  have hcap : s.act.cap + s.act.c ≤ s.hw.dmemWords := by
    have h1 := ha.cap
    rw [regionValid_eq, decide_eq_true_eq] at h1
    have h2 := ha.w_le_c
    have h3 := ha.one_le_w
    have h4 := ha.nePos
    have : 1 ≤ (s.act.ne + 1) * s.act.w := Nat.mul_pos (by omega) h3
    omega
  have hwc : s.act.w ≤ s.act.c :=
    Nat.le_trans (Nat.le_mul_of_pos_left _ (Nat.succ_pos _)) ha.w_le_c
  have hlt := ha.w_lt hi.hw
  cases hev : r.sync.event with
  | start =>
    obtain ⟨-, b, ws, hb, hbd, hl, hw⟩ := hr.start hev
    have hbn : r.sync.bound.toNat = b := by
      rw [hbd, BitVec.toNat_ofNat]
      exact Nat.mod_eq_of_lt (by omega)
    refine ⟨?_, ?_, ?_⟩
    · simp [Effect.regions, pushEffect, hw, storedRegions, Effect.commit, State.complete, hev, hl, hbn]
    · simp [Effect.regions, pushEffect, hw, RegionIn, hl]
      omega
    · exact effectRegions_named (by rw [namedRegions, hok])
  | noDetect =>
    cases hm : s.sync.mode with
    | searchingStart =>
      have hw := hr.search (.inl hev) hm
      refine ⟨?_, ?_, ?_⟩
      · simp [Effect.regions, pushEffect, hw, storedRegions, Effect.commit, State.complete, hev, hm]
      · simp [Effect.regions, pushEffect, hw]
      · simp [Effect.regions, pushEffect, hw]
    | capturing =>
      obtain ⟨hle, ws, hl, hw⟩ := hr.append (.inl hev) hm
      refine ⟨?_, ?_, ?_⟩
      · simp [Effect.regions, pushEffect, hw, storedRegions, Effect.commit, State.complete, hev, hm, hl]
      · simp [Effect.regions, pushEffect, hw, RegionIn, hl]
        omega
      · exact effectRegions_named (by rw [namedRegions, hok])
  | candidate =>
    cases hm : s.sync.mode with
    | searchingStart =>
      have hw := hr.search (.inr hev) hm
      refine ⟨?_, ?_, ?_⟩
      · simp [Effect.regions, pushEffect, hw, storedRegions, Effect.commit, State.complete, hev, hm]
      · simp [Effect.regions, pushEffect, hw]
      · simp [Effect.regions, pushEffect, hw]
    | capturing =>
      obtain ⟨hle, ws, hl, hw⟩ := hr.append (.inr hev) hm
      refine ⟨?_, ?_, ?_⟩
      · simp [Effect.regions, pushEffect, hw, storedRegions, Effect.commit, State.complete, hev, hm, hl]
      · simp [Effect.regions, pushEffect, hw, RegionIn, hl]
        omega
      · exact effectRegions_named (by rw [namedRegions, hok])
  | none | primed | frame | tooLong =>
    have hw := hr.other (by simp [hev])
    refine ⟨?_, ?_, ?_⟩
    · cases s.sync.mode <;>
        simp [Effect.regions, pushEffect, hw, storedRegions, Effect.commit, State.complete, hev]
    · simp [Effect.regions, pushEffect, hw]
    · simp [Effect.regions, pushEffect, hw]

/-- What every successful command writes, in a consistent state. -/
theorem effect_writesOk (i : Instr) (s : State) (e : Effect) (hi : Inv s) (h : effectOf i s = .ok e) :
    WritesOk i s e := by
  cases i with
  | nop => exact writesOk_nop s e h
  | cfgApply => exact writesOk_cfgApply s e h
  | layoutDump => exact writesOk_layoutDump s e hi h
  | fftFwd => exact writesOk_transform fwd _ (.inl rfl) fwd_length s e h
  | fftInv => exact writesOk_transform inv _ (.inr rfl) inv_length s e h
  | cconv => exact writesOk_cconv s e h
  | xcorr => exact writesOk_xcorr _ _ (.inl rfl) s e hi h
  | xcorrSel => exact writesOk_xcorr _ _ (.inr rfl) s e hi h
  | syncPush => exact writesOk_syncPush s e hi h
  | syncReset => exact writesOk_syncReset s e h
  | ofdmEnc => exact writesOk_ofdmEnc s e hi h
  | ofdmEncImagOut => exact writesOk_ofdmEncImagOut s e hi h
  | ofdmDec => exact writesOk_ofdmDec s e hi h
  | ofdmDecImagIn => exact writesOk_ofdmDecImagIn s e hi h
  | realign => exact writesOk_realign s e h
  | chEst => exact writesOk_chEst s e h
  | chEq => exact writesOk_chEq s e h
  | pskMod => exact writesOk_pskMod s e h
  | pskDemod => exact writesOk_pskDemod s e h
  | bitPack => exact writesOk_bitPack s e hi h
  | bitUnpack => exact writesOk_bitUnpack s e h

/-! ### The registers a command writes -/

/-- What a successful command leaves unchanged, and the event bits of its completion. -/
structure PostOk (i : Instr) (s : State) (e : Effect) : Prop where
  frame : e.post =
    { s with
      corrRe := e.post.corrRe
      corrIm := e.post.corrIm
      act := e.post.act
      cfgValid := e.post.cfgValid
      res := e.post.res
      sync := e.post.sync }
  corr : i ≠ .chEst → e.post.corrRe = s.corrRe ∧ e.post.corrIm = s.corrIm
  act : i ≠ .cfgApply → e.post.act = s.act ∧ e.post.cfgValid = s.cfgValid
  res : i ∉ [Instr.xcorr, .xcorrSel, .syncPush, .bitPack, .bitUnpack] → e.post.res = s.res
  res0 : i ∈ [Instr.bitPack, .bitUnpack] → ∃ w, e.post.res = s.res.set 0 w
  sync : i ∉ [Instr.syncPush, .syncReset, .cfgApply] → e.post.sync = s.sync
  event : i ≠ .syncPush → e.eventBits = 0
  pushEvent : i = .syncPush → e.eventBits = e.post.sync.event.irq

/-- A command that writes DMEM only. -/
theorem postOk_of (i : Instr) (s : State) (writes : List (Nat × List Word))
    (hi : i ∉ [Instr.syncPush, .bitPack, .bitUnpack]) : PostOk i s (Effect.of s writes) := by
  constructor <;> simp_all [Effect.of]

theorem postOk_res (i : Instr) (s : State) (w : Word) (writes : List (Nat × List Word))
    (hi : i ∈ [Instr.bitPack, .bitUnpack]) : PostOk i s (Effect.of (s.setRes 0 w) writes) := by
  simp only [List.mem_cons, List.not_mem_nil, or_false] at hi
  rcases hi with rfl | rfl
  · exact ⟨rfl, fun _ => ⟨rfl, rfl⟩, fun _ => ⟨rfl, rfl⟩, by simp, fun _ => ⟨w, rfl⟩, fun _ => rfl,
      fun _ => rfl, by simp⟩
  · exact ⟨rfl, fun _ => ⟨rfl, rfl⟩, fun _ => ⟨rfl, rfl⟩, by simp, fun _ => ⟨w, rfl⟩, fun _ => rfl,
      fun _ => rfl, by simp⟩

/-- The registers that every successful command writes, and those it leaves. -/
theorem effect_postOk (i : Instr) (s : State) (e : Effect) (h : effectOf i s = .ok e) : PostOk i s e := by
  cases i with
  | nop =>
    cases h
    exact postOk_of _ _ _ (by decide)
  | cfgApply =>
    obtain ⟨_, -, h⟩ := (bind_ok _ _ _).mp h
    obtain ⟨_, -, h⟩ := (bind_ok _ _ _).mp h
    cases h
    constructor <;> simp [Effect.of]
  | layoutDump =>
    obtain ⟨_, -, h⟩ := (bind_ok _ _ _).mp ((effect_layoutDump s).symm.trans h)
    cases h
    exact postOk_of _ _ _ (by decide)
  | fftFwd =>
    obtain ⟨_, -, h⟩ := (bind_ok _ _ _).mp ((effect_transform fwd s).symm.trans h)
    obtain ⟨_, -, h⟩ := (bind_ok _ _ _).mp h
    obtain ⟨_, -, h⟩ := (bind_ok _ _ _).mp h
    cases h
    exact postOk_of _ _ _ (by decide)
  | fftInv =>
    obtain ⟨_, -, h⟩ := (bind_ok _ _ _).mp ((effect_transform inv s).symm.trans h)
    obtain ⟨_, -, h⟩ := (bind_ok _ _ _).mp h
    obtain ⟨_, -, h⟩ := (bind_ok _ _ _).mp h
    cases h
    exact postOk_of _ _ _ (by decide)
  | cconv =>
    obtain ⟨_, -, h⟩ := (bind_ok _ _ _).mp ((effect_cconv s).symm.trans h)
    obtain ⟨_, -, h⟩ := (bind_ok _ _ _).mp h
    obtain ⟨_, -, h⟩ := (bind_ok _ _ _).mp h
    obtain ⟨_, -, h⟩ := (bind_ok _ _ _).mp h
    obtain ⟨_, -, h⟩ := (bind_ok _ _ _).mp h
    cases h
    exact postOk_of _ _ _ (by decide)
  | xcorr =>
    obtain ⟨_, -, h⟩ := (bind_ok _ _ _).mp ((effect_xcorr _ s).symm.trans h)
    obtain ⟨_, -, h⟩ := (bind_ok _ _ _).mp h
    obtain ⟨_, -, h⟩ := (bind_ok _ _ _).mp h
    cases h
    constructor <;> simp [Effect.of]
  | xcorrSel =>
    obtain ⟨_, -, h⟩ := (bind_ok _ _ _).mp ((effect_xcorr _ s).symm.trans h)
    obtain ⟨_, -, h⟩ := (bind_ok _ _ _).mp h
    obtain ⟨_, -, h⟩ := (bind_ok _ _ _).mp h
    cases h
    constructor <;> simp [Effect.of]
  | syncPush =>
    obtain ⟨_, -, h⟩ := (bind_ok _ _ _).mp ((effect_syncPush s).symm.trans h)
    obtain ⟨cur, -, h⟩ := (bind_ok _ _ _).mp h
    have hp : ∃ r, e = pushEffect s r := by
      split at h
      · obtain ⟨_, -, h⟩ := (bind_ok _ _ _).mp h
        exact ⟨_, ((pure_ok _ _).mp h).symm⟩
      · exact ⟨_, ((pure_ok _ _).mp h).symm⟩
    obtain ⟨r, rfl⟩ := hp
    constructor <;> simp [pushEffect]
  | syncReset =>
    cases h
    constructor <;> simp [Effect.of, State.resetSync]
  | ofdmEnc =>
    obtain ⟨_, -, h⟩ := (bind_ok _ _ _).mp ((effect_ofdmEnc s).symm.trans h)
    obtain ⟨_, -, h⟩ := (bind_ok _ _ _).mp h
    obtain ⟨_, -, h⟩ := (bind_ok _ _ _).mp h
    obtain ⟨_, -, h⟩ := (bind_ok _ _ _).mp h
    obtain ⟨_, -, h⟩ := (bind_ok _ _ _).mp h
    cases h
    exact postOk_of _ _ _ (by decide)
  | ofdmEncImagOut =>
    obtain ⟨_, -, h⟩ := (bind_ok _ _ _).mp ((effect_ofdmEncImagOut s).symm.trans h)
    obtain ⟨_, -, h⟩ := (bind_ok _ _ _).mp h
    obtain ⟨_, -, h⟩ := (bind_ok _ _ _).mp h
    obtain ⟨_, -, h⟩ := (bind_ok _ _ _).mp h
    obtain ⟨_, -, h⟩ := (bind_ok _ _ _).mp h
    cases h
    exact postOk_of _ _ _ (by decide)
  | ofdmDec =>
    obtain ⟨_, -, h⟩ := (bind_ok _ _ _).mp ((effect_ofdmDec s).symm.trans h)
    obtain ⟨_, -, h⟩ := (bind_ok _ _ _).mp h
    obtain ⟨_, -, h⟩ := (bind_ok _ _ _).mp h
    cases h
    exact postOk_of _ _ _ (by decide)
  | ofdmDecImagIn =>
    obtain ⟨_, -, h⟩ := (bind_ok _ _ _).mp ((effect_ofdmDecImagIn s).symm.trans h)
    obtain ⟨_, -, h⟩ := (bind_ok _ _ _).mp h
    obtain ⟨_, -, h⟩ := (bind_ok _ _ _).mp h
    cases h
    exact postOk_of _ _ _ (by decide)
  | realign =>
    obtain ⟨_, -, h⟩ := (bind_ok _ _ _).mp ((effect_realign s).symm.trans h)
    obtain ⟨_, -, h⟩ := (bind_ok _ _ _).mp h
    cases h
    exact postOk_of _ _ _ (by decide)
  | chEst =>
    obtain ⟨_, -, h⟩ := (bind_ok _ _ _).mp ((effect_chEst s).symm.trans h)
    obtain ⟨_, -, h⟩ := (bind_ok _ _ _).mp h
    obtain ⟨_, -, h⟩ := (bind_ok _ _ _).mp h
    obtain ⟨_, -, h⟩ := (bind_ok _ _ _).mp h
    obtain ⟨_, -, h⟩ := (bind_ok _ _ _).mp h
    cases h
    constructor <;> simp [Effect.of]
  | chEq =>
    obtain ⟨_, -, h⟩ := (bind_ok _ _ _).mp ((effect_chEq s).symm.trans h)
    obtain ⟨_, -, h⟩ := (bind_ok _ _ _).mp h
    obtain ⟨_, -, h⟩ := (bind_ok _ _ _).mp h
    cases h
    exact postOk_of _ _ _ (by decide)
  | pskMod =>
    obtain ⟨_, -, h⟩ := (bind_ok _ _ _).mp ((effect_pskMod s).symm.trans h)
    obtain ⟨_, -, h⟩ := (bind_ok _ _ _).mp h
    cases h
    exact postOk_of _ _ _ (by decide)
  | pskDemod =>
    obtain ⟨_, -, h⟩ := (bind_ok _ _ _).mp ((effect_pskDemod s).symm.trans h)
    obtain ⟨_, -, h⟩ := (bind_ok _ _ _).mp h
    obtain ⟨_, -, h⟩ := (bind_ok _ _ _).mp h
    cases h
    exact postOk_of _ _ _ (by decide)
  | bitPack =>
    obtain ⟨_, -, h⟩ := (bind_ok _ _ _).mp ((effect_bitPack s).symm.trans h)
    obtain ⟨_, -, h⟩ := (bind_ok _ _ _).mp h
    cases h
    exact postOk_res _ _ _ _ (by decide)
  | bitUnpack =>
    obtain ⟨_, -, h⟩ := (bind_ok _ _ _).mp ((effect_bitUnpack s).symm.trans h)
    unfold bitUnpackBody at h
    obtain ⟨_, -, h⟩ := (bind_ok _ _ _).mp h
    obtain ⟨_, -, h⟩ := (bind_ok _ _ _).mp h
    obtain ⟨_, -, h⟩ := (bind_ok _ _ _).mp h
    obtain ⟨_, -, h⟩ := (bind_ok _ _ _).mp h
    obtain ⟨_, -, h⟩ := (bind_ok _ _ _).mp h
    cases h
    exact postOk_res _ _ _ _ (by decide)

end Sys2Proof.Machine
end

