-- ==== Sys2Proof/Laws/PerInstr.lean ====
section
/-!
SUPPORT. Statements made per command: the word of a command decodes to it (spec/30_encoding.md R82, R88).
-/

namespace Sys2Proof.Laws.RoundTrip

/-- A command's word decodes to that command (R82, R88). -/
def Statement (i : Sys2Proof.Instr) : Prop := Sys2Proof.decode (Sys2Proof.encode i) = .command i

theorem nop : Statement .nop := by
  show _ = _
  decide

theorem cfgApply : Statement .cfgApply := by
  show _ = _
  decide

theorem layoutDump : Statement .layoutDump := by
  show _ = _
  decide

theorem fftFwd : Statement .fftFwd := by
  show _ = _
  decide

theorem fftInv : Statement .fftInv := by
  show _ = _
  decide

theorem cconv : Statement .cconv := by
  show _ = _
  decide

theorem xcorr : Statement .xcorr := by
  show _ = _
  decide

theorem xcorrSel : Statement .xcorrSel := by
  show _ = _
  decide

theorem syncPush : Statement .syncPush := by
  show _ = _
  decide

theorem syncReset : Statement .syncReset := by
  show _ = _
  decide

theorem ofdmEnc : Statement .ofdmEnc := by
  show _ = _
  decide

theorem ofdmEncImagOut : Statement .ofdmEncImagOut := by
  show _ = _
  decide

theorem ofdmDec : Statement .ofdmDec := by
  show _ = _
  decide

theorem ofdmDecImagIn : Statement .ofdmDecImagIn := by
  show _ = _
  decide

theorem realign : Statement .realign := by
  show _ = _
  decide

theorem chEst : Statement .chEst := by
  show _ = _
  decide

theorem chEq : Statement .chEq := by
  show _ = _
  decide

theorem pskMod : Statement .pskMod := by
  show _ = _
  decide

theorem pskDemod : Statement .pskDemod := by
  show _ = _
  decide

theorem bitPack : Statement .bitPack := by
  show _ = _
  decide

theorem bitUnpack : Statement .bitUnpack := by
  show _ = _
  decide

end Sys2Proof.Laws.RoundTrip
end

