-- ==== Sys2Proof/Laws/Trig.lean ====
section
/-!
SUPPORT. How near the fixed-point series of the seeds come to the real cosine and sine (spec/41_fft.md R122; log 9).
-/

namespace Sys2Proof.Machine

/-- The alternating series in fixed point is near the real one: each term is cut once. -/
theorem alternatingSum_near (terms k term x2 : ℕ) (t : ℝ) (hx : (x2 : ℝ) / 2 ^ 256 ≤ 6) :
    |(alternatingSum terms k term x2 : ℝ) / 2 ^ 128 -
        t * ∑ j ∈ Finset.range terms, (-((x2 : ℝ) / 2 ^ 256)) ^ j * (k.factorial / (k + 2 * j).factorial)| ≤
      4 ^ terms * (|(term : ℝ) / 2 ^ 128 - t| + 1 / 2 ^ 128) := by
  induction terms generalizing k term t with
  | zero =>
    simp only [alternatingSum, Finset.range_zero, Finset.sum_empty]
    norm_num
    positivity
  | succ n ih =>
    have hq : (0 : ℝ) < ((k + 1) * (k + 2) : ℕ) := by positivity
    have hq2 : (2 : ℝ) ≤ ((k + 1) * (k + 2) : ℕ) := by exact_mod_cast (by nlinarith : 2 ≤ (k + 1) * (k + 2))
    have hx0 : 0 ≤ (x2 : ℝ) / 2 ^ 256 := by positivity
    set X := (x2 : ℝ) / 2 ^ 256 with hX
    set term' := term * x2 / (2 ^ (2 * trigBits) * ((k + 1) * (k + 2))) with hterm'
    set r := X / ((k + 1) * (k + 2) : ℕ) with hr
    have hr0 : 0 ≤ r := by positivity
    have hr3 : r ≤ 3 := by rw [hr, div_le_iff₀ hq]; linarith
    have hfl : |(term' : ℝ) / 2 ^ 128 - (term : ℝ) / 2 ^ 128 * r| ≤ 1 / 2 ^ 128 := by
      have hd : (0 : ℝ) < (2 ^ (2 * trigBits) * ((k + 1) * (k + 2)) : ℕ) := by positivity
      have e : (term : ℝ) * r = ((term * x2 : ℕ) : ℝ) / (2 ^ (2 * trigBits) * ((k + 1) * (k + 2)) : ℕ) := by
        rw [hr, hX]; simp only [trigBits]; push_cast; field_simp; norm_num
      have h1 : (term' : ℝ) ≤ term * r := by rw [e]; exact Nat.cast_div_le
      have h2 : (term : ℝ) * r < term' + 1 := by
        rw [e, div_lt_iff₀ hd]
        exact_mod_cast Nat.lt_mul_of_div_lt (Nat.lt_succ_self _) (by positivity)
      rw [div_mul_eq_mul_div, ← sub_div, abs_div, abs_of_pos (by positivity : (0:ℝ) < 2 ^ 128)]
      gcongr
      rw [abs_le]; constructor <;> linarith
    have hδ : |(term' : ℝ) / 2 ^ 128 - t * r| ≤ 3 * |(term : ℝ) / 2 ^ 128 - t| + 1 / 2 ^ 128 := by
      calc |(term' : ℝ) / 2 ^ 128 - t * r|
          = |((term' : ℝ) / 2 ^ 128 - (term : ℝ) / 2 ^ 128 * r) + ((term : ℝ) / 2 ^ 128 - t) * r| := by ring_nf
        _ ≤ 1 / 2 ^ 128 + |(term : ℝ) / 2 ^ 128 - t| * r := by
            refine (abs_add_le _ _).trans (add_le_add hfl ?_)
            rw [abs_mul, abs_of_nonneg hr0]
        _ ≤ _ := by nlinarith [abs_nonneg ((term : ℝ) / 2 ^ 128 - t)]
    have hi := ih (k + 2) term' (t * r)
    have hs : t * ∑ j ∈ Finset.range (n + 1), (-X) ^ j * (k.factorial / (k + 2 * j).factorial : ℝ) =
        t - t * r * ∑ j ∈ Finset.range n, (-X) ^ j * ((k + 2).factorial / (k + 2 + 2 * j).factorial : ℝ) := by
      have hk : (k.factorial : ℝ) ≠ 0 := by positivity
      rw [Finset.sum_range_succ']
      have : ∀ j, (-X) ^ (j + 1) * (k.factorial / (k + 2 * (j + 1)).factorial : ℝ) =
          -(r * ((-X) ^ j * ((k + 2).factorial / (k + 2 + 2 * j).factorial : ℝ))) := by
        intro j
        rw [show k + 2 * (j + 1) = k + 2 + 2 * j by ring, Nat.factorial_succ (k + 1), Nat.factorial_succ k, hr]
        have : ((k + 2 + 2 * j).factorial : ℝ) ≠ 0 := by positivity
        push_cast
        have h1 : (k : ℝ) + 1 ≠ 0 := by positivity
        have h2 : (k : ℝ) + 2 ≠ 0 := by positivity
        field_simp
        ring
      simp only [this, Finset.sum_neg_distrib, ← Finset.mul_sum]
      simp [hk]
      ring
    rw [hs]
    have ha : (alternatingSum (n + 1) k term x2 : ℝ) =
        term - (alternatingSum n (k + 2) term' x2 : ℝ) := by
      simp only [alternatingSum]; push_cast; rfl
    rw [ha]
    set S := ∑ j ∈ Finset.range n, (-X) ^ j * ((k + 2).factorial / (k + 2 + 2 * j).factorial : ℝ)
    have h4 : (1 : ℝ) ≤ 4 ^ n := one_le_pow₀ (by norm_num)
    calc |((term : ℝ) - (alternatingSum n (k + 2) term' x2 : ℝ)) / 2 ^ 128 - (t - t * r * S)|
        = |((term : ℝ) / 2 ^ 128 - t) - ((alternatingSum n (k + 2) term' x2 : ℝ) / 2 ^ 128 - t * r * S)| := by
          ring_nf
      _ ≤ |(term : ℝ) / 2 ^ 128 - t| + 4 ^ n * (|(term' : ℝ) / 2 ^ 128 - t * r| + 1 / 2 ^ 128) :=
          (abs_sub _ _).trans (add_le_add le_rfl hi)
      _ ≤ |(term : ℝ) / 2 ^ 128 - t| + 4 ^ n * (3 * |(term : ℝ) / 2 ^ 128 - t| + 1 / 2 ^ 128 + 1 / 2 ^ 128) := by
          gcongr
      _ ≤ 4 ^ (n + 1) * (|(term : ℝ) / 2 ^ 128 - t| + 1 / 2 ^ 128) := by
          have h1 := abs_nonneg ((term : ℝ) / 2 ^ 128 - t)
          have h2 : (0 : ℝ) ≤ 1 / 2 ^ 128 := by positivity
          rw [pow_succ (4 : ℝ) n]
          generalize |(term : ℝ) / 2 ^ 128 - t| = δ at *
          generalize (1 : ℝ) / 2 ^ 128 = ε at *
          nlinarith [mul_le_mul_of_nonneg_right h4 h1, mul_nonneg (zero_le_one.trans h4) h2]

/-- Thirty terms of the Taylor series of cosine and sine. -/
theorem taylor_near (x : ℝ) (h0 : 0 ≤ x) (h : x ≤ 3) :
    |Real.cos x - ∑ j ∈ Finset.range 30, (-(x ^ 2)) ^ j * (1 / (2 * j).factorial)| ≤ 1 / 2 ^ 100 ∧
      |Real.sin x - x * ∑ j ∈ Finset.range 30, (-(x ^ 2)) ^ j * (1 / (1 + 2 * j).factorial)| ≤ 1 / 2 ^ 100 := by
  have hb := Complex.exp_bound' (x := x * Complex.I) (n := 60) (by
    simp [abs_of_nonneg h0]; rw [div_le_iff₀ (by norm_num)]; linarith)
  have hn : ‖(x : ℂ) * Complex.I‖ = x := by simp [abs_of_nonneg h0]
  rw [hn] at hb
  have hle : x ^ 60 / (Nat.factorial 60) * 2 ≤ (1 : ℝ) / 2 ^ 100 := by
    calc x ^ 60 / (Nat.factorial 60) * 2 ≤ 3 ^ 60 / (Nat.factorial 60) * 2 := by gcongr
      _ ≤ _ := by norm_num [Nat.factorial]
  have hsum : (∑ m ∈ Finset.range 60, ((x : ℂ) * Complex.I) ^ m / m.factorial) =
      ((∑ j ∈ Finset.range 30, (-(x ^ 2)) ^ j * (1 / (2 * j).factorial) : ℝ) : ℂ) +
      ((x * ∑ j ∈ Finset.range 30, (-(x ^ 2)) ^ j * (1 / (1 + 2 * j).factorial) : ℝ) : ℂ) * Complex.I := by
    have : ∀ n : ℕ, (∑ m ∈ Finset.range (2 * n), ((x : ℂ) * Complex.I) ^ m / m.factorial) =
        ((∑ j ∈ Finset.range n, (-(x ^ 2)) ^ j * (1 / (2 * j).factorial) : ℝ) : ℂ) +
        ((x * ∑ j ∈ Finset.range n, (-(x ^ 2)) ^ j * (1 / (1 + 2 * j).factorial) : ℝ) : ℂ) * Complex.I := by
      intro n
      induction n with
      | zero => simp
      | succ n ih =>
        rw [show 2 * (n + 1) = 2 * n + 1 + 1 by ring, Finset.sum_range_succ, Finset.sum_range_succ, ih,
          Finset.sum_range_succ, Finset.sum_range_succ]
        have e1 : ((x : ℂ) * Complex.I) ^ (2 * n) = (-(x : ℂ) ^ 2) ^ n := by
          rw [pow_mul, mul_pow, Complex.I_sq]; ring
        have e2 : ((x : ℂ) * Complex.I) ^ (2 * n + 1) = (-(x : ℂ) ^ 2) ^ n * (x * Complex.I) := by
          rw [pow_succ, e1]
        rw [e1, e2, Nat.add_comm 1 (2 * n)]
        push_cast
        ring
    exact this 30
  rw [hsum, Complex.exp_mul_I, ← Complex.ofReal_cos, ← Complex.ofReal_sin] at hb
  set A := ∑ j ∈ Finset.range 30, (-(x ^ 2)) ^ j * (1 / (2 * j).factorial : ℝ)
  set B := x * ∑ j ∈ Finset.range 30, (-(x ^ 2)) ^ j * (1 / (1 + 2 * j).factorial : ℝ)
  have hz := hb.trans hle
  constructor
  · refine le_trans (le_trans (le_of_eq ?_) (Complex.abs_re_le_norm _)) hz
    simp [-Complex.ofReal_cos, -Complex.ofReal_sin]
  · refine le_trans (le_trans (le_of_eq ?_) (Complex.abs_im_le_norm _)) hz
    simp [-Complex.ofReal_cos, -Complex.ofReal_sin]

/-- π in fixed point, by the twenty decimals that Mathlib knows. -/
theorem piFixed_near : |(piFixed : ℝ) / 2 ^ 128 - Real.pi| ≤ 1 / 10 ^ 20 := by
  have h1 := Real.pi_gt_d20
  have h2 := Real.pi_lt_d20
  simp only [piFixed]
  norm_num at h1 h2 ⊢
  rw [abs_le]
  constructor <;> linarith

/-- The angle 2π/d in fixed point. -/
theorem angleFixed_near (d : ℕ) (hd : 3 ≤ d) :
    |(angleFixed d : ℝ) / 2 ^ 128 - 2 * Real.pi / d| ≤ 1 / 10 ^ 20 := by
  have hdp : (0 : ℝ) < d := by exact_mod_cast (by omega : 0 < d)
  have hd3 : (3 : ℝ) ≤ d := by exact_mod_cast hd
  have h1 : (angleFixed d : ℝ) ≤ 2 * piFixed / d := by
    have := Nat.cast_div_le (α := ℝ) (m := 2 * piFixed) (n := d)
    simpa [angleFixed] using this
  have h2 : (2 : ℝ) * piFixed / d < angleFixed d + 1 := by
    rw [div_lt_iff₀ hdp]
    exact_mod_cast Nat.lt_mul_of_div_lt (Nat.lt_succ_self _) (by omega)
  have hp := piFixed_near
  have ha : |(angleFixed d : ℝ) / 2 ^ 128 - 2 * ((piFixed : ℝ) / 2 ^ 128) / d| ≤ 1 / 2 ^ 128 := by
    rw [show 2 * ((piFixed : ℝ) / 2 ^ 128) / d = (2 * piFixed / d) / 2 ^ 128 by ring, ← sub_div, abs_div,
      abs_of_pos (by positivity : (0 : ℝ) < 2 ^ 128)]
    gcongr
    rw [abs_le]
    constructor <;> linarith
  have hb : |2 * ((piFixed : ℝ) / 2 ^ 128) / d - 2 * Real.pi / d| ≤ 2 / 3 * (1 / 10 ^ 20) := by
    rw [show 2 * ((piFixed : ℝ) / 2 ^ 128) / d - 2 * Real.pi / d =
      2 / d * ((piFixed : ℝ) / 2 ^ 128 - Real.pi) by ring, abs_mul, abs_of_pos (by positivity)]
    gcongr
  calc _ ≤ _ := abs_sub_le _ (2 * ((piFixed : ℝ) / 2 ^ 128) / d) _
    _ ≤ 1 / 2 ^ 128 + 2 / 3 * (1 / 10 ^ 20) := add_le_add ha hb
    _ ≤ _ := by norm_num

/-- What the fixed-point series give: cosine and sine of 2π/d. -/
theorem trigFixed_near (d : ℕ) (hd : 3 ≤ d) :
    |(cosFixed (angleFixed d) : ℝ) / 2 ^ 128 - Real.cos (2 * Real.pi / d)| ≤ 1 / 2 ^ 62 ∧
      |(sinFixed (angleFixed d) : ℝ) / 2 ^ 128 - Real.sin (2 * Real.pi / d)| ≤ 1 / 2 ^ 62 := by
  have hang := angleFixed_near d hd
  have hd3 : (3 : ℝ) ≤ d := by exact_mod_cast hd
  set θ := 2 * Real.pi / d with hθ
  set x := (angleFixed d : ℝ) / 2 ^ 128 with hx
  have hθ3 : θ ≤ 2.1 := by
    rw [hθ, div_le_iff₀ (by linarith)]
    have := Real.pi_lt_d20
    nlinarith
  have hx0 : 0 ≤ x := by positivity
  have hx3 : x ≤ 2.2 := by
    have := (abs_le.mp hang).2
    have : (1 : ℝ) / 10 ^ 20 ≤ 0.1 := by norm_num
    linarith
  have hsq : ((angleFixed d * angleFixed d : ℕ) : ℝ) / 2 ^ 256 = x ^ 2 := by
    rw [hx, div_pow, ← pow_mul, Nat.cast_mul, sq]
  have h6 : ((angleFixed d * angleFixed d : ℕ) : ℝ) / 2 ^ 256 ≤ 6 := by rw [hsq]; nlinarith
  obtain ⟨tc, ts⟩ := taylor_near x hx0 (by linarith)
  have c := alternatingSum_near 30 0 (2 ^ trigBits) (angleFixed d * angleFixed d) 1 h6
  have s := alternatingSum_near 30 1 (angleFixed d) (angleFixed d * angleFixed d) x h6
  have lc : |Real.cos x - Real.cos θ| ≤ |x - θ| := Real.abs_cos_sub_cos_le x θ
  have ls : |Real.sin x - Real.sin θ| ≤ |x - θ| := Real.abs_sin_sub_sin_le x θ
  have e1 : ((2 ^ trigBits : ℕ) : ℝ) / 2 ^ 128 - 1 = 0 := by norm_num [trigBits]
  have e2 : (angleFixed d : ℝ) / 2 ^ 128 - x = 0 := by simp [hx]
  rw [e1, hsq] at c
  rw [e2, hsq] at s
  simp only [Nat.factorial_zero, Nat.factorial_one, Nat.cast_one, zero_add, one_mul, abs_zero] at c s
  have hnum : (1 : ℝ) / 10 ^ 20 + 1 / 2 ^ 100 + 4 ^ 30 * (1 / 2 ^ 128) ≤ 1 / 2 ^ 62 := by norm_num
  constructor
  · refine le_trans ?_ hnum
    calc _ ≤ _ := abs_sub_le _ (Real.cos x) _
      _ ≤ _ := add_le_add (abs_sub_le _ _ _) le_rfl
      _ ≤ (4 ^ 30 * (1 / 2 ^ 128) + 1 / 2 ^ 100) + 1 / 10 ^ 20 :=
        add_le_add (add_le_add c ((abs_sub_comm _ _).trans_le tc)) (lc.trans hang)
      _ = _ := by ring
  · refine le_trans ?_ hnum
    calc _ ≤ _ := abs_sub_le _ (Real.sin x) _
      _ ≤ _ := add_le_add (abs_sub_le _ _ _) le_rfl
      _ ≤ (4 ^ 30 * (1 / 2 ^ 128) + 1 / 2 ^ 100) + 1 / 10 ^ 20 :=
        add_le_add (add_le_add s ((abs_sub_comm _ _).trans_le ts)) (ls.trans hang)
      _ = _ := by ring
end Sys2Proof.Machine
end

